-- ==== Sys2Proof/Word.lean ====
section
/-! DEFINITION. The two word types of the TC framing core (00_scope.md R5): every value is unsigned. -/

namespace Sys2Proof

/-- `u8`: one byte of a stream (R5). -/
abbrev Byte := BitVec 8

/-- `u16`: a CRC value, a sequence number or a count (R5). -/
abbrev U16 := BitVec 16

end Sys2Proof
end

