-- ==== Sys2Proof/Machine/Constants.lean ====
section
/-! DEFINITION. The numeric constants and the frame's field layout, each stated once; every length and offset is derived from them (00_scope.md R2,
R4; 92_eei_decisions.md D23; log 12). -/

namespace Sys2Proof

/-- First byte of the start-of-frame marker (R4, R71). -/
def sof0 : Byte := 0x1A
/-- Second byte of the start-of-frame marker (R4, R71). -/
def sof1 : Byte := 0xCF
/-- The start-of-frame marker (R71). -/
def sof : List Byte := [sof0, sof1]
/-- Length of the start-of-frame marker: 2 (R2). -/
def sofLen : Nat := sof.length

/-- What a byte of the header holds (R70). -/
inductive HeaderField where
  | packetType | sequenceHigh | sequenceLow | payloadLength
  deriving DecidableEq, Repr

/-- The header's bytes in order (R70, R72, R73): the encoder writes it and the decoder reads it from here. -/
def headerLayout : List HeaderField := [.packetType, .sequenceHigh, .sequenceLow, .payloadLength]
/-- Length of the header: 4 (`HDR_LEN`, R4). -/
def hdrLen : Nat := headerLayout.length
/-- Length of the checksum field (R4). -/
def crcLen : Nat := 2
/-- Largest payload of a frame (R4). -/
def maxPayload : Nat := 255

/-- The offset of a header byte from the first byte of SOF (R70). -/
def fieldOffset (f : HeaderField) : Nat := sofLen + headerLayout.idxOf f
/-- The offset of the payload: 6 (R70). -/
def payloadOffset : Nat := sofLen + hdrLen
/-- The offset of the checksum behind a payload of `n` bytes: `6 + n` (R70). -/
def checksumOffset (n : Nat) : Nat := payloadOffset + n
/-- The length of a frame with a payload of `n` bytes: `8 + n` (R70, R75). -/
def frameLength (n : Nat) : Nat := checksumOffset n + crcLen
/-- Length of the shortest frame: 8 (`MIN_FRAME`, R4, R77). -/
def minFrame : Nat := frameLength 0
/-- Length of the longest frame: 263 (R2, R77). -/
def maxFrame : Nat := frameLength maxPayload

/-- The generator polynomial, most significant bit first (R4). -/
def crcPoly : U16 := 0x1021
/-- The polynomial with its bits reversed, for the least-significant-first register: `0x8408` in R100. -/
def crcPolyReflected : U16 := crcPoly.reverse
/-- Initial CRC value (R4). -/
def crcInit : U16 := 0x0000
/-- The initial value as the least-significant-first register holds it: `0x0000` in R30, R101 and R104. -/
def crcStart : U16 := crcInit.reverse
/-- Input bytes are bit-reversed (R4). -/
def crcRefIn : Bool := true
/-- The result is bit-reversed (R4). -/
def crcRefOut : Bool := true
/-- Final XOR (R4). -/
def crcXorOut : U16 := 0x0000

end Sys2Proof
end

