-- ==== Sys2Proof/Machine/Operands.lean ====
section
/-! DEFINITION. Byte order and byte-list operands: big-endian assembly (20_memory.md R52, R55, R56; 00_scope.md R6). -/

namespace Sys2Proof

/-- `be16(hi, lo) = hi * 256 + lo` (R6). -/
def be16 (hi lo : Byte) : U16 := BitVec.ofNat 16 (hi.toNat * 256 + lo.toNat)

/-- `v[15:8]`. -/
def hiByte (v : U16) : Byte := v.extractLsb' 8 8

/-- `v[7:0]`. -/
def loByte (v : U16) : Byte := v.extractLsb' 0 8

/-- `bytes_be16(v) = [v[15:8], v[7:0]]` (R6). -/
def bytesBe16 (v : U16) : List Byte := [hiByte v, loByte v]

/-- `bs[k]` (R6). Every caller checks the length first; past the end it answers 0. -/
def byteAt (bs : List Byte) (k : Nat) : Byte := bs.getD k 0

/-- `bs[a..b)` (R6). -/
def slice (bs : List Byte) (a b : Nat) : List Byte := (bs.drop a).take (b - a)

/-- The first `n` bytes and what follows them, once `n` bytes are present. -/
def splitBytes (n : Nat) (bs : List Byte) : Option (List Byte × List Byte) :=
  if n ≤ bs.length then some (bs.take n, bs.drop n) else none

end Sys2Proof
end

