-- ==== Sys2Proof/Syntax.lean ====
section
/-! DEFINITION. The commands of TC-CMD/1, one constructor per row of spec/opcode_table.json (30_encoding.md R81, R82). -/

namespace Sys2Proof

/-- A command with its operands. The count `n` of a byte list is the list's length (R87). -/
inductive Instr where
  /-- CRC.CLR (R104). -/
  | crcClr
  /-- CRC.UPD b (R105). -/
  | crcUpd (b : Byte)
  /-- CRC.RD (R106). -/
  | crcRd
  /-- FRM.ENC t, s, p (R122). -/
  | frmEnc (t : Byte) (sq : U16) (p : List Byte)
  /-- FRM.SEND t, p (R123). -/
  | frmSend (t : Byte) (p : List Byte)
  /-- SEQ.RD (R181). -/
  | seqRd
  /-- SEQ.ADV (R182). -/
  | seqAdv
  /-- RX.PUSH b (R148). -/
  | rxPush (b : Byte)
  /-- RX.PUSHN d (R150). -/
  | rxPushn (d : List Byte)
  /-- RX.DEC (R151). -/
  | rxDec
  /-- RX.LVL (R152). -/
  | rxLvl
  /-- RXSEQ.RD (R186). -/
  | rxseqRd
  deriving DecidableEq, Repr

end Sys2Proof
end

