-- ==== Sys2Proof/WellFormed.lean ====
section
/-! DEFINITION. Which commands the encoding can carry: a byte list's count `n` is 16 bits (30_encoding.md R81, R87). -/

namespace Sys2Proof

/-- A byte list fits its 16-bit count. A payload above 255 bytes is well formed: it is presented and rejected (R81, R121). -/
def fitsCount (bs : List Byte) : Bool := bs.length ≤ 65535

/-- The check an assembler makes before it encodes a command (R87). Byte and sequence operands fit by their types. -/
def Instr.wellFormed : Instr → Bool
  | .crcClr => true
  | .crcUpd _ => true
  | .crcRd => true
  | .frmEnc _ _ p => fitsCount p
  | .frmSend _ p => fitsCount p
  | .seqRd => true
  | .seqAdv => true
  | .rxPush _ => true
  | .rxPushn d => fitsCount d
  | .rxDec => true
  | .rxLvl => true
  | .rxseqRd => true

end Sys2Proof
end

