-- ==== Sys2Proof/Decode.lean ====
section
/-! DEFINITION. The command format: opcode map, the port's decoder (total on any bytes), and the encoder (30_encoding.md R80 to R85). -/

namespace Sys2Proof

/-- The assigned operation codes, by name. -/
inductive Opcode where
  | crcClr | crcUpd | crcRd | frmEnc | frmSend | seqRd | seqAdv | rxPush | rxPushn | rxDec | rxLvl | rxseqRd
  deriving DecidableEq, Repr

/-- The opcode map (R82). -/
def opcodeMap : List (Byte × Opcode) :=
  [(0x01, .crcClr), (0x02, .crcUpd), (0x03, .crcRd),
   (0x10, .frmEnc), (0x11, .frmSend), (0x18, .seqRd), (0x19, .seqAdv),
   (0x20, .rxPush), (0x21, .rxPushn), (0x22, .rxDec), (0x23, .rxLvl), (0x28, .rxseqRd)]

/-- The command an opcode byte selects: the whole byte is compared (R82). -/
def opcodeOf (op : Byte) : Option Opcode := opcodeMap.lookup op

/-- The opcode byte of each command (R82). -/
def Opcode.byte : Opcode → Byte
  | .crcClr => 0x01
  | .crcUpd => 0x02
  | .crcRd => 0x03
  | .frmEnc => 0x10
  | .frmSend => 0x11
  | .seqRd => 0x18
  | .seqAdv => 0x19
  | .rxPush => 0x20
  | .rxPushn => 0x21
  | .rxDec => 0x22
  | .rxLvl => 0x23
  | .rxseqRd => 0x28

/-- What the port finds at the front of the bytes that have arrived. -/
inductive Fetched where
  /-- A whole command, and the bytes after it. -/
  | command (i : Instr) (rest : List Byte)
  /-- An unassigned opcode byte, and the bytes after it (R83). -/
  | illegal (opcode : Byte) (rest : List Byte)
  /-- Fewer bytes than the command's length: it has not arrived (R85). -/
  | incomplete
  deriving DecidableEq, Repr

/-- A byte list with a big-endian 16-bit count before it (R81). -/
def countedBytes : List Byte → Option (List Byte × List Byte)
  | nH :: nL :: bs => splitBytes (be16 nH nL).toNat bs
  | _ => none

/-- The operand bytes of a command, by its format (R82): the command and the bytes after it, or nothing where bytes are missing. -/
def decodeOperands : Opcode → List Byte → Option (Instr × List Byte)
  | .crcClr, bs => some (.crcClr, bs)
  | .crcUpd, b :: bs => some (.crcUpd b, bs)
  | .crcUpd, [] => none
  | .crcRd, bs => some (.crcRd, bs)
  | .frmEnc, t :: sH :: sL :: bs => (countedBytes bs).map fun r => (.frmEnc t (be16 sH sL) r.1, r.2)
  | .frmEnc, _ => none
  | .frmSend, t :: bs => (countedBytes bs).map fun r => (.frmSend t r.1, r.2)
  | .frmSend, [] => none
  | .seqRd, bs => some (.seqRd, bs)
  | .seqAdv, bs => some (.seqAdv, bs)
  | .rxPush, b :: bs => some (.rxPush b, bs)
  | .rxPush, [] => none
  | .rxPushn, bs => (countedBytes bs).map fun r => (.rxPushn r.1, r.2)
  | .rxDec, bs => some (.rxDec, bs)
  | .rxLvl, bs => some (.rxLvl, bs)
  | .rxseqRd, bs => some (.rxseqRd, bs)

/-- The port's decoder (R80, R82, R83, R85). -/
def decode : List Byte → Fetched
  | [] => .incomplete
  | op :: bs =>
    match opcodeOf op with
    | none => .illegal op bs
    | some o =>
      match decodeOperands o bs with
      | none => .incomplete
      | some r => .command r.1 r.2

/-- The length of a command by its opcode and the bytes after it, once the bytes that fix it have arrived (R85). -/
def lengthOf : Opcode → List Byte → Option Nat
  | .crcClr, _ => some 1
  | .crcUpd, _ => some 2
  | .crcRd, _ => some 1
  | .frmEnc, _ :: _ :: _ :: nH :: nL :: _ => some (6 + (be16 nH nL).toNat)
  | .frmEnc, _ => none
  | .frmSend, _ :: nH :: nL :: _ => some (4 + (be16 nH nL).toNat)
  | .frmSend, _ => none
  | .seqRd, _ => some 1
  | .seqAdv, _ => some 1
  | .rxPush, _ => some 2
  | .rxPushn, nH :: nL :: _ => some (3 + (be16 nH nL).toNat)
  | .rxPushn, _ => none
  | .rxDec, _ => some 1
  | .rxLvl, _ => some 1
  | .rxseqRd, _ => some 1

/-- The length of the command at the front of `bs` (R85): 1 for an unassigned opcode. -/
def commandLength : List Byte → Option Nat
  | [] => none
  | op :: bs =>
    match opcodeOf op with
    | none => some 1
    | some o => lengthOf o bs

/-- A byte list operand with its count (R81). -/
def encodeCounted (bs : List Byte) : List Byte := bytesBe16 (BitVec.ofNat 16 bs.length) ++ bs

/-- The byte string of a command (R80, R82). -/
def encode : Instr → List Byte
  | .crcClr => [Opcode.crcClr.byte]
  | .crcUpd b => [Opcode.crcUpd.byte, b]
  | .crcRd => [Opcode.crcRd.byte]
  | .frmEnc t sq p => [Opcode.frmEnc.byte, t] ++ bytesBe16 sq ++ encodeCounted p
  | .frmSend t p => [Opcode.frmSend.byte, t] ++ encodeCounted p
  | .seqRd => [Opcode.seqRd.byte]
  | .seqAdv => [Opcode.seqAdv.byte]
  | .rxPush b => [Opcode.rxPush.byte, b]
  | .rxPushn d => [Opcode.rxPushn.byte] ++ encodeCounted d
  | .rxDec => [Opcode.rxDec.byte]
  | .rxLvl => [Opcode.rxLvl.byte]
  | .rxseqRd => [Opcode.rxseqRd.byte]

/-- The first `k` bytes of a word numbered as spec/opcode_table.json numbers it: byte 0 is bits 7..0, byte 1 is bits 15..8 and so on. -/
def bytesOfWord : Nat → Nat → List Byte
  | 0, _ => []
  | k + 1, w => BitVec.ofNat 8 w :: bytesOfWord k (w / 256)

/-- The bytes of the command that a table word of `nbits` bits stands for, every bit above `nbits` zero, and exactly as
many bytes as the command has: six bytes settle its length (R85), and zeros make up what the word does not give (log 8). -/
def tableBytes (nbits w : Nat) : List Byte :=
  let word := w % 2 ^ nbits
  let len := (commandLength (bytesOfWord 6 word)).getD 6
  bytesOfWord len word

/-- The command this decoder reads from a word of spec/opcode_table.json; none where it is an unassigned opcode. -/
def decodeTableWord (nbits w : Nat) : Option Instr :=
  match decode (tableBytes nbits w) with
  | .command i _ => some i
  | .illegal _ _ => none
  | .incomplete => none

end Sys2Proof
end

