-- ==== Sys2Proof/Machine/Crc.lean ====
section
/-! DEFINITION. CRC-16/Kermit: the reflected form that the block uses (40_checksum.md R100, R101) and the two other forms of R102. -/

namespace Sys2Proof

/-- One of the eight shifts of `crc_step` (R100). -/
def crcShift (c : U16) : U16 :=
  if c.getLsbD 0 then (c >>> 1) ^^^ crcPolyReflected else c >>> 1

/-- A byte as the least-significant-first register takes it: as it stands, because input bytes are reflected (R4). -/
def crcIn (b : Byte) : Byte := if crcRefIn then b else b.reverse

/-- The result read off the register: its value, because the result is reflected and the final XOR is 0 (R4). -/
def crcOut (c : U16) : U16 := (if crcRefOut then c else c.reverse) ^^^ crcXorOut

/-- `crc_step(c, b)` (R100; `crcStep_eq` is the rule's own line). -/
def crcStep (c : U16) (b : Byte) : U16 := crcShift^[8] (c ^^^ (crcIn b).setWidth 16)

/-- `crc16k(bs)`: the fold of `crc_step` from the initial value (R101; `crc16k_eq` is the rule's own line). -/
def crc16k (bs : List Byte) : U16 := crcOut (bs.foldl crcStep crcStart)

/-- The bits of a byte, most significant first. -/
def bitsMsb (b : Byte) : List Bool := (List.range 8).map fun k => b.getLsbD (7 - k)

/-- The bits of a byte, least significant first. -/
def bitsLsb (b : Byte) : List Bool := (List.range 8).map fun k => b.getLsbD k

/-- One bit fed into the shift register with feedback polynomial `poly` (R102). -/
def msbShift (poly : U16) (r : U16) (bit : Bool) : U16 :=
  if (r.getLsbD 15) ^^ bit then (r <<< 1) ^^^ poly else r <<< 1

/-- The parameter model of a 16-bit CRC (R102): each byte reversed if `refin`, fed most significant bit first into a register that
starts at `init`, the result reversed if `refout` and XORed with `xorout`. -/
def crcModel (poly init : U16) (refin refout : Bool) (xorout : U16) (bs : List Byte) : U16 :=
  let feed := fun (r : U16) (b : Byte) => (bitsMsb (if refin then b.reverse else b)).foldl (msbShift poly) r
  let r := bs.foldl feed init
  (if refout then r.reverse else r) ^^^ xorout

/-- One bit of long division by `x^16 + poly`: the remainder so far times `x`, plus the next coefficient (R102). -/
def divideBit (poly : U16) (r : U16) (bit : Bool) : U16 :=
  let shifted := (r <<< 1) ||| (BitVec.ofBool bit).setWidth 16
  if r.getLsbD 15 then shifted ^^^ poly else shifted

/-- The remainder of a polynomial over GF(2), its highest coefficient first, by `x^16 + poly`. -/
def polyRemainder (poly : U16) (coeffs : List Bool) : U16 := coeffs.foldl (divideBit poly) 0

/-- The polynomial form (R102): the bit-reversal of `M(x)·x^16 mod (x^16 + x^12 + x^5 + 1)`, each byte's bit 0 taken first. -/
def crcPolynomial (bs : List Byte) : U16 :=
  (polyRemainder crcPoly (bs.flatMap bitsLsb ++ List.replicate 16 false)).reverse

end Sys2Proof
end

