-- ==== Sys2Proof/Machine/Response.lean ====
section
/-! DEFINITION. The typed responses and their status codes (30_encoding.md R86). -/

namespace Sys2Proof.Machine

/-- The statuses of a response (R86). -/
inductive Status where
  | ok | packet | needMoreNoSof | needMoreIncomplete | crcMismatch | payloadTooLarge | illegalCmd
  deriving DecidableEq, Repr

/-- The code of each status (R86). -/
def Status.code : Status → Byte
  | .ok => 0x00
  | .packet => 0x01
  | .needMoreNoSof => 0x02
  | .needMoreIncomplete => 0x03
  | .crcMismatch => 0x04
  | .payloadTooLarge => 0x80
  | .illegalCmd => 0x81

/-- A response with its fields (R86). One constructor per record shape; counts are `Nat` there, and have no byte form. -/
inductive Response where
  /-- OK with no field: CRC.CLR, CRC.UPD, SEQ.ADV. -/
  | done
  /-- OK, CRC.RD. -/
  | crc (crc : U16)
  /-- OK, FRM.ENC. -/
  | frame (frame : List Byte)
  /-- OK, FRM.SEND. -/
  | sent (seq : U16) (frame : List Byte)
  /-- OK, SEQ.RD. -/
  | seq (seq : U16)
  /-- OK, RX.PUSH and RX.PUSHN. -/
  | pushed (dropped : Nat)
  /-- OK, RX.LVL. -/
  | level (level : Nat)
  /-- OK, RXSEQ.RD. -/
  | tracker (valid : Bool) (last : U16)
  /-- RX.DEC decoded a packet. -/
  | packet (consumed : Nat) (ptype : Byte) (seq : U16) (payload : List Byte) (gap : Option U16)
  /-- RX.DEC found no SOF. -/
  | needMoreNoSof (consumed : Nat)
  /-- RX.DEC found an SOF but not the whole frame. -/
  | needMoreIncomplete (consumed : Nat)
  /-- RX.DEC found a corrupt frame. -/
  | crcMismatch (consumed : Nat)
  /-- FRM.ENC or FRM.SEND with more than 255 payload bytes. -/
  | payloadTooLarge (length : Nat)
  /-- An unassigned opcode. -/
  | illegalCmd (opcode : Byte)
  deriving DecidableEq, Repr

/-- The status a response carries (R86). -/
def Response.status : Response → Status
  | .done => .ok
  | .crc _ => .ok
  | .frame _ => .ok
  | .sent _ _ => .ok
  | .seq _ => .ok
  | .pushed _ => .ok
  | .level _ => .ok
  | .tracker _ _ => .ok
  | .packet _ _ _ _ _ => .packet
  | .needMoreNoSof _ => .needMoreNoSof
  | .needMoreIncomplete _ => .needMoreIncomplete
  | .crcMismatch _ => .crcMismatch
  | .payloadTooLarge _ => .payloadTooLarge
  | .illegalCmd _ => .illegalCmd

/-- The two error statuses (60_exceptions.md R201, R202): the command failed and left no effect (R200). -/
def Status.isError : Status → Bool
  | .payloadTooLarge => true
  | .illegalCmd => true
  | .ok => false
  | .packet => false
  | .needMoreNoSof => false
  | .needMoreIncomplete => false
  | .crcMismatch => false

end Sys2Proof.Machine
end

