-- ==== Sys2Proof/Machine/State.lean ====
section
/-! DEFINITION. The state of the block, its reset value, and the reasons its machine can stop (10_state.md R20, R29, R30; 30_encoding.md R80). -/

namespace Sys2Proof.Machine

/-- What the outside world does to the block between commands (60_exceptions.md R215). -/
inductive Input where
  /-- A command byte arrives on the port (30_encoding.md R80). -/
  | byte (b : Byte)
  /-- The reset input is asserted (70_reset_and_hazards.md R230). -/
  | reset
  deriving DecidableEq, Repr

/-- The five registers (R20), the two outputs (R8, R29, R86), the command port (R80, R85), and the inputs still to come. -/
structure State where
  /-- `CRC_ACC`, the CRC generator's accumulator (R23). -/
  crcAcc : U16
  /-- `TX_SEQ`, the next outgoing sequence number (R24). -/
  txSeq : U16
  /-- `RXBUF`, the receive buffer, oldest byte first (R25). -/
  rxbuf : List Byte
  /-- `LAST_SEQ_VALID` (R26). -/
  lastSeqValid : Bool
  /-- `LAST_SEQ` (R26). -/
  lastSeq : U16
  /-- `TXOUT`, every byte emitted in this run, oldest first (R29). -/
  txout : List Byte
  /-- Every response given in this run, oldest first (R8, R86; log 1). -/
  responses : List Response
  /-- Command bytes that have arrived and are not yet consumed, oldest first (R80, R85). -/
  port : List Byte
  /-- What the outside world will still do, in order: the model's own field (log 3). -/
  inputs : List Input
  deriving DecidableEq, Repr

/-- Why the machine has no next step. No instruction raises either: the block only waits (log 5). -/
inductive Fault where
  /-- Raised by `step` when the port is empty and nothing more is to come: the block waits for a command byte and keeps
  all state (R214, R231). Safe: the spec has no step here. -/
  | idle
  /-- Raised by `step` when part of a command has arrived and nothing more is to come: the stuck state of R239 and U9.
  Safe: the spec has no step here. -/
  | portHold
  deriving DecidableEq, Repr

/-- Why an instruction has no meaning. -/
inductive Refusal where
  /-- Raised by `exec` for an instruction without a meaning, by its mnemonic; no arm raises it. Safe. -/
  | notModelled (mnemonic : String)
  deriving DecidableEq, Repr

/-- The state right after reset (R30, R230). -/
def State.reset : State where
  crcAcc := crcStart
  txSeq := 0x0000
  rxbuf := []
  lastSeqValid := false
  lastSeq := 0x0000
  txout := []
  responses := []
  port := []
  inputs := []

end Sys2Proof.Machine
end

