-- ==== Sys2Proof/Machine/Ops.lean ====
section
/-! DEFINITION. The named operations every command is written with: register writes, `emit`, `respond`, `raise` (00_scope.md R7), and the
port's own operations. -/

namespace Sys2Proof.Machine

/-- `CRC_ACC <- v` (R23). -/
def writeCrcAcc (v : U16) (s : State) : State := { s with crcAcc := v }

/-- `TX_SEQ <- v` (R24). -/
def writeTxSeq (v : U16) (s : State) : State := { s with txSeq := v }

/-- `RXBUF <- bs` (R25). -/
def writeRxbuf (bs : List Byte) (s : State) : State := { s with rxbuf := bs }

/-- `LAST_SEQ <- v; LAST_SEQ_VALID <- 1` (R26, R185). -/
def writeTracker (v : U16) (s : State) : State := { s with lastSeqValid := true, lastSeq := v }

/-- `emit(bs)`: the whole byte list is appended to `TXOUT` in one step (R7, R125). -/
def emit (bs : List Byte) (s : State) : State := { s with txout := s.txout ++ bs }

/-- `respond(status, fields)` (R7, R86). -/
def respond (r : Response) (s : State) : State := { s with responses := s.responses ++ [r] }

/-- `raise E(info)`: the error is the response, every register is unchanged and nothing is emitted (R7, R200). This is the
block's whole exception entry: nothing is saved, no mode changes, no vector is taken, and there is no return (R207). -/
def raise (e : Response) (s : State) : State := respond e s

/-- The port keeps `rest`, the bytes after the consumed command (R80). -/
def setPort (rest : List Byte) (s : State) : State := { s with port := rest }

/-- The inputs still to come. -/
def setInputs (rest : List Input) (s : State) : State := { s with inputs := rest }

/-- An unassigned opcode byte: it alone is consumed, and the response is ILLEGAL_CMD (R83, R202). -/
def illegalCommand (op : Byte) (rest : List Byte) (s : State) : State := raise (.illegalCmd op) (setPort rest s)

/-- A command byte arrives: nothing else changes (R80, R85). -/
def arrive (b : Byte) (rest : List Input) (s : State) : State := setInputs rest (setPort (s.port ++ [b]) s)

/-- The reset input: every register at its reset value, the partly arrived command discarded, a new run begun (R30, R230; log 4). -/
def applyReset (rest : List Input) : State := setInputs rest State.reset

/-- The next outcome from the state a first one leaves. -/
def andThen (o : Host.Outcome State Fault Refusal) (k : State → Host.Outcome State Fault Refusal) :
    Host.Outcome State Fault Refusal :=
  match o with
  | .next s => k s
  | .fault r => .fault r
  | .refused r => .refused r

end Sys2Proof.Machine
end

