-- ==== Sys2Proof/Machine/CrcUnit.lean ====
section
/-! DEFINITION. The CRC generator's commands (40_checksum.md R104 to R106). -/

namespace Sys2Proof.Machine

/-- CRC.CLR (R104): the register at the CRC's initial value, `0x0000`. -/
def execCrcClr (s : State) : Host.Outcome State Fault Refusal :=
  .next (respond .done (writeCrcAcc crcStart s))

/-- CRC.UPD (R105). -/
def execCrcUpd (b : Byte) (s : State) : Host.Outcome State Fault Refusal :=
  .next (respond .done (writeCrcAcc (crcStep s.crcAcc b) s))

/-- CRC.RD (R106): the register's value, unreflected and unswapped. -/
def execCrcRd (s : State) : Host.Outcome State Fault Refusal :=
  .next (respond (.crc s.crcAcc) s)

end Sys2Proof.Machine
end

