-- ==== Sys2Proof/Machine/Flags.lean ====
section
/-! DEFINITION. The one flag-like bit, `LAST_SEQ_VALID`, and the sequence arithmetic around it (10_state.md R27; 43_sequence.md R180, R184, R185).
The block has no condition codes. -/

namespace Sys2Proof.Machine

/-- `(v + 1) mod 65536` (R180). -/
def nextSeq (v : U16) : U16 := v + 1

/-- `gap_of(last, s) = (s - (last + 1)) mod 65536` (R184). -/
def gapOf (last sq : U16) : U16 := sq - (last + 1)

/-- The gap that `track(sq)` reports: none before the first accepted packet (R185). -/
def gapReport (s : State) (sq : U16) : Option U16 :=
  if s.lastSeqValid then some (gapOf s.lastSeq sq) else none

/-- `track(sq)` (R185): the reported gap, and the tracker set whatever the gap. -/
def track (sq : U16) (s : State) : Option U16 × State := (gapReport s sq, writeTracker sq s)

end Sys2Proof.Machine
end

