-- ==== Sys2Proof/Machine/Frame.lean ====
section
/-! DEFINITION. The wire frame and the pure frame encoder (30_encoding.md R70 to R77; 41_encoder.md R120, R121). -/

namespace Sys2Proof

/-- The value of each header byte (R70, R72, R73). -/
def headerByte (t : Byte) (sq : U16) (p : List Byte) : HeaderField → Byte
  | .packetType => t
  | .sequenceHigh => hiByte sq
  | .sequenceLow => loByte sq
  | .payloadLength => BitVec.ofNat 8 p.length

/-- The header's bytes, in the order of the layout (R70; `frameHeader_eq` is R120's own line). -/
def frameHeader (t : Byte) (sq : U16) (p : List Byte) : List Byte := headerLayout.map (headerByte t sq p)

/-- `encode(t, s, p)` (R120); `none` is PayloadTooLarge, checked before anything is built (R121). -/
def encodeFrame (t : Byte) (sq : U16) (p : List Byte) : Option (List Byte) :=
  if maxPayload < p.length then none
  else
    let hdr := frameHeader t sq p
    some (sof ++ hdr ++ p ++ bytesBe16 (crc16k (hdr ++ p)))

end Sys2Proof
end

