-- ==== Sys2Proof/Machine/FrameUnit.lean ====
section
/-! DEFINITION. The frame encoder's commands (41_encoder.md R122 to R125). -/

namespace Sys2Proof.Machine

/-- FRM.ENC (R122). -/
def execFrmEnc (t : Byte) (sq : U16) (p : List Byte) (s : State) : Host.Outcome State Fault Refusal :=
  match encodeFrame t sq p with
  | none => .next (raise (.payloadTooLarge p.length) s)
  | some r => .next (respond (.frame r) (emit r s))

/-- FRM.SEND (R123): the response carries the value before the increment. -/
def execFrmSend (t : Byte) (p : List Byte) (s : State) : Host.Outcome State Fault Refusal :=
  match encodeFrame t s.txSeq p with
  | none => .next (raise (.payloadTooLarge p.length) s)
  | some r => .next (writeTxSeq (nextSeq s.txSeq) (respond (.sent s.txSeq r) (emit r s)))

end Sys2Proof.Machine
end

