-- ==== Sys2Proof/Config.lean ====
section
/-! DEFINITION. What an implementation fixes: the receive buffer's capacity, the block's one parameter (00_scope.md R3). -/

namespace Sys2Proof

/-- `BUF_CAP` (R3): unbounded, or a capacity of at least 263 bytes, one maximum-length frame. The bounded case
gives what the capacity has beyond that, so that `c >= 263` holds by construction. -/
inductive BufCap where
  | unbounded
  | bounded (beyond : Nat)
  deriving DecidableEq, Repr, Inhabited

/-- `BUF_CAP` as the spec writes it, an `Option Nat` (R3). -/
def BufCap.cap : BufCap → Option Nat
  | .unbounded => none
  | .bounded beyond => some (maxFrame + beyond)

/-- The capacity of the chip at hand. The spec leaves it open (R3, D9), so nothing here gives it a value: whatever
is proved about the machine holds for every capacity the spec allows (log 6). -/
opaque Config.bufCap : BufCap

end Sys2Proof
end

