-- ==== Sys2Proof/Machine/RxBuffer.lean ====
section
/-! DEFINITION. Appending received bytes to the receive buffer at a capacity `cap` (42_decoder.md R148, R149, R150). -/

namespace Sys2Proof

/-- One byte pushed: the new buffer, and how many bytes were dropped, 0 or 1 (R148, R149). -/
def pushByte (cap : Option Nat) (buf : List Byte) (b : Byte) : List Byte × Nat :=
  if cap = some buf.length then (buf.drop 1 ++ [b], 1) else (buf ++ [b], 0)

/-- The bytes of `d` pushed in order: the new buffer and the total dropped (R150). -/
def pushBytes (cap : Option Nat) : List Byte → List Byte → List Byte × Nat
  | buf, [] => (buf, 0)
  | buf, b :: d =>
    let one := pushByte cap buf b
    let rest := pushBytes cap one.1 d
    (rest.1, one.2 + rest.2)

end Sys2Proof
end

