-- ==== Sys2Proof/Machine/StreamDecoder.lean ====
section
/-! DEFINITION. The resynchronizing stream decoder, a pure function of the buffer (42_decoder.md R140, R141, R147). -/

namespace Sys2Proof

/-- A decoded packet (00_scope.md §6). -/
structure Packet where
  ptype : Byte
  sequence : U16
  payload : List Byte
  deriving DecidableEq, Repr

/-- The result of a decode attempt, with what it consumes (R141). -/
inductive Attempt where
  | needMoreNoSof
  | needMoreIncomplete (consumed : Nat)
  | packet (consumed : Nat) (pkt : Packet)
  | crcMismatch (consumed : Nat)
  deriving DecidableEq, Repr

/-- How many bytes the attempt removes from the front of the buffer (R141, R142). -/
def Attempt.consumed : Attempt → Nat
  | .needMoreNoSof => 0
  | .needMoreIncomplete k => k
  | .packet k _ => k
  | .crcMismatch k => k

/-- TC's decoder contract `(Packet | None, bytes_consumed)` as the projection of the attempt (R164). -/
def Attempt.projection : Attempt → Option Packet × Nat
  | .needMoreNoSof => (none, 0)
  | .needMoreIncomplete k => (none, k)
  | .packet k pkt => (some pkt, k)
  | .crcMismatch k => (none, k)

/-- `find_sof(buf)`: the least index of `1A CF`, searched from index 0 upward (R140). -/
def findSof : List Byte → Option Nat
  | [] => none
  | [_] => none
  | a :: b :: rest => if a = sof0 ∧ b = sof1 then some 0 else (findSof (b :: rest)).map (· + 1)

/-- `try_decode(buf)`, step by step (R141): `i + 2` to `i + 5` there are the header's offsets, `i + 6` the payload's, `8 + L` the frame's length. -/
def tryDecode (buf : List Byte) : Attempt :=
  match findSof buf with
  | none => .needMoreNoSof
  | some i =>
    if buf.length - i < minFrame then .needMoreIncomplete i
    else
      let field := fun f => byteAt buf (i + fieldOffset f)
      let t := field .packetType
      let sq := be16 (field .sequenceHigh) (field .sequenceLow)
      let len := (field .payloadLength).toNat
      let total := frameLength len
      if buf.length - i < total then .needMoreIncomplete i
      else
        let checksum := i + checksumOffset len
        let p := slice buf (i + payloadOffset) checksum
        let rx := be16 (byteAt buf checksum) (byteAt buf (checksum + 1))
        if crc16k (slice buf (i + sofLen) checksum) = rx then .packet (i + total) ⟨t, sq, p⟩
        else .crcMismatch (i + total)

end Sys2Proof
end

