-- ==== Sys2Proof/Machine/RxUnit.lean ====
section
/-! DEFINITION. The receive commands (42_decoder.md R148 to R152). The push commands take the capacity as an argument (00_scope.md R3); the
instruction's own meaning is the one at the configured capacity. -/

namespace Sys2Proof.Machine

/-- RX.PUSH at a capacity (R148, R149). -/
def rxPushAt (cap : Option Nat) (b : Byte) (s : State) : Host.Outcome State Fault Refusal :=
  let r := pushByte cap s.rxbuf b
  .next (respond (.pushed r.2) (writeRxbuf r.1 s))

/-- RX.PUSHN at a capacity (R150): one atomic step. -/
def rxPushnAt (cap : Option Nat) (d : List Byte) (s : State) : Host.Outcome State Fault Refusal :=
  let r := pushBytes cap s.rxbuf d
  .next (respond (.pushed r.2) (writeRxbuf r.1 s))

/-- RX.PUSH (R148). -/
def execRxPush (b : Byte) (s : State) : Host.Outcome State Fault Refusal :=
  rxPushAt Config.bufCap.cap b s

/-- RX.PUSHN (R150). -/
def execRxPushn (d : List Byte) (s : State) : Host.Outcome State Fault Refusal :=
  rxPushnAt Config.bufCap.cap d s

/-- RX.DEC (R151): one decode attempt, the drop of what it consumed, and the tracker for a packet only. -/
def execRxDec (s : State) : Host.Outcome State Fault Refusal :=
  let a := tryDecode s.rxbuf
  let s1 := writeRxbuf (s.rxbuf.drop a.consumed) s
  match a with
  | .needMoreNoSof => .next (respond (.needMoreNoSof 0) s1)
  | .needMoreIncomplete k => .next (respond (.needMoreIncomplete k) s1)
  | .packet k pkt =>
    let g := track pkt.sequence s1
    .next (respond (.packet k pkt.ptype pkt.sequence pkt.payload g.1) g.2)
  | .crcMismatch k => .next (respond (.crcMismatch k) s1)

/-- TC's decoder contract `(Packet | None, bytes_consumed)` read off an RX.DEC response (R86, R164); other responses have none. -/
def tcResult : Response → Option (Option Packet × Nat)
  | .packet k t sq p _ => some (some ⟨t, sq, p⟩, k)
  | .needMoreNoSof k => some (none, k)
  | .needMoreIncomplete k => some (none, k)
  | .crcMismatch k => some (none, k)
  | .done => none
  | .crc _ => none
  | .frame _ => none
  | .sent _ _ => none
  | .seq _ => none
  | .pushed _ => none
  | .level _ => none
  | .tracker _ _ => none
  | .payloadTooLarge _ => none
  | .illegalCmd _ => none

/-- RX.LVL (R152). -/
def execRxLvl (s : State) : Host.Outcome State Fault Refusal :=
  .next (respond (.level s.rxbuf.length) s)

end Sys2Proof.Machine
end

