-- ==== Sys2Proof/Machine/SeqUnit.lean ====
section
/-! DEFINITION. The transmit sequence counter's and the receive tracker's commands (43_sequence.md R181, R182, R186). -/

namespace Sys2Proof.Machine

/-- SEQ.RD (R181). -/
def execSeqRd (s : State) : Host.Outcome State Fault Refusal :=
  .next (respond (.seq s.txSeq) s)

/-- SEQ.ADV (R182). -/
def execSeqAdv (s : State) : Host.Outcome State Fault Refusal :=
  .next (respond .done (writeTxSeq (nextSeq s.txSeq) s))

/-- RXSEQ.RD (R186): both tracker registers as they stand. -/
def execRxseqRd (s : State) : Host.Outcome State Fault Refusal :=
  .next (respond (.tracker s.lastSeqValid s.lastSeq) s)

end Sys2Proof.Machine
end

