-- ==== Sys2Proof/Machine/Dispatch.lean ====
section
/-! DEFINITION. The meaning of each instruction, one arm each. -/

namespace Sys2Proof.Machine

def exec (i : Instr) (s : State) : Host.Outcome State Fault Refusal :=
  match i with
  | .crcClr => Sys2Proof.Machine.execCrcClr s
  | .crcUpd b => Sys2Proof.Machine.execCrcUpd b s
  | .crcRd => Sys2Proof.Machine.execCrcRd s
  | .frmEnc t sq p => Sys2Proof.Machine.execFrmEnc t sq p s
  | .frmSend t p => Sys2Proof.Machine.execFrmSend t p s
  | .seqRd => Sys2Proof.Machine.execSeqRd s
  | .seqAdv => Sys2Proof.Machine.execSeqAdv s
  | .rxPush b => Sys2Proof.Machine.execRxPush b s
  | .rxPushn d => Sys2Proof.Machine.execRxPushn d s
  | .rxDec => Sys2Proof.Machine.execRxDec s
  | .rxLvl => Sys2Proof.Machine.execRxLvl s
  | .rxseqRd => Sys2Proof.Machine.execRxseqRd s

end Sys2Proof.Machine
end

