-- ==== Sys2Proof/Machine/Step.lean ====
section
/-! DEFINITION. One step of the block: the command at the front of the port, or else the next input (30_encoding.md R80, R83, R85;
70_reset_and_hazards.md R230, R239). -/

namespace Sys2Proof.Machine

/-- A command that has arrived executes, with its bytes consumed; an unassigned opcode is answered; otherwise the next input lands. With no
input left the block waits: `idle` on an empty port, `portHold` on a partly arrived command. -/
def step (s : State) : Host.Outcome State Fault Refusal :=
  match decode s.port with
  | .command i rest => exec i (setPort rest s)
  | .illegal op rest => .next (illegalCommand op rest s)
  | .incomplete =>
    match s.inputs with
    | .byte b :: later => .next (arrive b later s)
    | .reset :: later => .next (applyReset later)
    | [] =>
      match s.port with
      | [] => .fault .idle
      | _ :: _ => .fault .portHold

/-- The command of a table word, alone on the port: the block takes its commands there (R80, R231; log 7). -/
def State.withFetchWord (s : State) (nbits w : Nat) : State := setPort (tableBytes nbits w) s

end Sys2Proof.Machine
end

