-- ==== Sys2Proof/Machine/Assembler.lean ====
section
/-! DEFINITION. The assembler syntax of one command line (30_encoding.md R87), read by the issuer's assembler, and a canonical way to write
it. What the rule leaves open is in log 10. -/

namespace Sys2Proof.Assembler

/-- What follows the spaces at the front. -/
def skipSpaces : List Char → List Char
  | ' ' :: cs => skipSpaces cs
  | cs => cs

/-- The value of a hexadecimal digit. -/
def hexValue (c : Char) : Option Nat :=
  if '0' ≤ c ∧ c ≤ '9' then some (c.toNat - '0'.toNat)
  else if 'a' ≤ c ∧ c ≤ 'f' then some (c.toNat - 'a'.toNat + 10)
  else if 'A' ≤ c ∧ c ≤ 'F' then some (c.toNat - 'A'.toNat + 10)
  else none

/-- The value of a decimal digit. -/
def decValue (c : Char) : Option Nat :=
  if '0' ≤ c ∧ c ≤ '9' then some (c.toNat - '0'.toNat) else none

/-- The digits at the front, read in `base` after the value so far; what follows them. -/
def digits (base : Nat) (value : Char → Option Nat) : Nat → List Char → Nat × List Char
  | acc, [] => (acc, [])
  | acc, c :: cs =>
    match value c with
    | some v => digits base value (acc * base + v) cs
    | none => (acc, c :: cs)

/-- A number: decimal, or hexadecimal with a `0x` prefix; at least one digit. -/
def number : List Char → Option (Nat × List Char)
  | '0' :: 'x' :: c :: cs => if (hexValue c).isSome then some (digits 16 hexValue 0 (c :: cs)) else none
  | c :: cs => if (decValue c).isSome then some (digits 10 decValue 0 (c :: cs)) else none
  | [] => none

/-- The bytes of `[h h h ...]` after the bracket, each two hex digits, and what follows the closing bracket. -/
def hexBytes : List Char → Option (List Byte × List Char)
  | ' ' :: cs => hexBytes cs
  | ']' :: cs => some ([], cs)
  | h :: l :: c :: cs =>
    match hexValue h, hexValue l with
    | some vh, some vl =>
      if c = ' ' ∨ c = ']' then (hexBytes (c :: cs)).map fun r => (BitVec.ofNat 8 (vh * 16 + vl) :: r.1, r.2) else none
    | _, _ => none
  | _ => none

/-- The bytes of a quoted ASCII string after its opening quote, and what follows the closing quote. -/
def quotedBytes : List Char → Option (List Byte × List Char)
  | [] => none
  | '"' :: cs => some ([], cs)
  | c :: cs => if c.toNat < 128 then (quotedBytes cs).map fun r => (BitVec.ofNat 8 c.toNat :: r.1, r.2) else none

/-- A byte list, in either form. -/
def byteList : List Char → Option (List Byte × List Char)
  | '[' :: cs => hexBytes cs
  | '"' :: cs => quotedBytes cs
  | _ => none

/-- The comma between two operands, with the spaces around it. -/
def comma (cs : List Char) : Option (List Char) :=
  match skipSpaces cs with
  | ',' :: rest => some (skipSpaces rest)
  | _ => none

/-- The command, if nothing but spaces follows it. -/
def lineEnd (i : Instr) (cs : List Char) : Option Instr :=
  if skipSpaces cs = [] then some i else none

/-- A number no larger than `max` (R87: a `b` or `t` above 255 and an `s` above 65535 are refused). -/
def bounded (max : Nat) (cs : List Char) : Option (Nat × List Char) :=
  (number cs).bind fun r => if r.1 ≤ max then some r else none

/-- A byte list of at most 65535 bytes (R87). -/
def countedList (cs : List Char) : Option (List Byte × List Char) :=
  (byteList cs).bind fun r => if fitsCount r.1 then some r else none

/-- The mnemonics in lower case (R87). -/
def nameOf : Opcode → List Char
  | .crcClr => ['c', 'r', 'c', '.', 'c', 'l', 'r']
  | .crcUpd => ['c', 'r', 'c', '.', 'u', 'p', 'd']
  | .crcRd => ['c', 'r', 'c', '.', 'r', 'd']
  | .frmEnc => ['f', 'r', 'm', '.', 'e', 'n', 'c']
  | .frmSend => ['f', 'r', 'm', '.', 's', 'e', 'n', 'd']
  | .seqRd => ['s', 'e', 'q', '.', 'r', 'd']
  | .seqAdv => ['s', 'e', 'q', '.', 'a', 'd', 'v']
  | .rxPush => ['r', 'x', '.', 'p', 'u', 's', 'h']
  | .rxPushn => ['r', 'x', '.', 'p', 'u', 's', 'h', 'n']
  | .rxDec => ['r', 'x', '.', 'd', 'e', 'c']
  | .rxLvl => ['r', 'x', '.', 'l', 'v', 'l']
  | .rxseqRd => ['r', 'x', 's', 'e', 'q', '.', 'r', 'd']

/-- Every command's operation. -/
def allOpcodes : List Opcode := opcodeMap.map Prod.snd

/-- The operation whose mnemonic a word spells: the word is all lower-case or all upper-case (R87). -/
def mnemonicOf (word : List Char) : Option Opcode :=
  allOpcodes.find? fun o => word = nameOf o ∨ word = (nameOf o).map Char.toUpper

/-- The operands of a command, by its operation (R87). -/
def operands : Opcode → List Char → Option Instr
  | .crcClr, cs => lineEnd .crcClr cs
  | .crcUpd, cs => (bounded 255 cs).bind fun b => lineEnd (.crcUpd (BitVec.ofNat 8 b.1)) b.2
  | .crcRd, cs => lineEnd .crcRd cs
  | .frmEnc, cs =>
    (bounded 255 cs).bind fun t => (comma t.2).bind fun c1 =>
      (bounded 65535 c1).bind fun sq => (comma sq.2).bind fun c2 =>
        (countedList c2).bind fun p => lineEnd (.frmEnc (BitVec.ofNat 8 t.1) (BitVec.ofNat 16 sq.1) p.1) p.2
  | .frmSend, cs =>
    (bounded 255 cs).bind fun t => (comma t.2).bind fun c1 =>
      (countedList c1).bind fun p => lineEnd (.frmSend (BitVec.ofNat 8 t.1) p.1) p.2
  | .seqRd, cs => lineEnd .seqRd cs
  | .seqAdv, cs => lineEnd .seqAdv cs
  | .rxPush, cs => (bounded 255 cs).bind fun b => lineEnd (.rxPush (BitVec.ofNat 8 b.1)) b.2
  | .rxPushn, cs => (countedList cs).bind fun d => lineEnd (.rxPushn d.1) d.2
  | .rxDec, cs => lineEnd .rxDec cs
  | .rxLvl, cs => lineEnd .rxLvl cs
  | .rxseqRd, cs => lineEnd .rxseqRd cs

/-- The mnemonic word at the front of a line and what follows it. -/
def splitWord : List Char → List Char × List Char
  | [] => ([], [])
  | c :: cs => if c = ' ' then ([], c :: cs) else (c :: (splitWord cs).1, (splitWord cs).2)

/-- The assembler of one line (R87): the command, or nothing where it refuses the line. -/
def assemble (line : List Char) : Option Instr :=
  let w := splitWord (skipSpaces line)
  (mnemonicOf w.1).bind fun o => operands o (skipSpaces w.2)

/-- A hexadecimal digit. -/
def hexDigit (v : Nat) : Char := Char.ofNat (if v < 10 then '0'.toNat + v else 'A'.toNat + (v - 10))

/-- The two hex digits of a byte. -/
def hexByte (b : Byte) : List Char := [hexDigit (b.toNat / 16), hexDigit (b.toNat % 16)]

/-- A byte as a number. -/
def writeByte (b : Byte) : List Char := '0' :: 'x' :: hexByte b

/-- A 16-bit value as a number. -/
def writeU16 (v : U16) : List Char := '0' :: 'x' :: hexByte (hiByte v) ++ hexByte (loByte v)

/-- A byte list in brackets. -/
def writeBytes (bs : List Byte) : List Char := '[' :: (bs.flatMap fun b => hexByte b ++ [' ']) ++ [']']

/-- A command line for a command, in lower case and hexadecimal. -/
def write : Instr → List Char
  | .crcClr => nameOf .crcClr
  | .crcUpd b => nameOf .crcUpd ++ [' '] ++ writeByte b
  | .crcRd => nameOf .crcRd
  | .frmEnc t sq p => nameOf .frmEnc ++ [' '] ++ writeByte t ++ [',', ' '] ++ writeU16 sq ++ [',', ' '] ++ writeBytes p
  | .frmSend t p => nameOf .frmSend ++ [' '] ++ writeByte t ++ [',', ' '] ++ writeBytes p
  | .seqRd => nameOf .seqRd
  | .seqAdv => nameOf .seqAdv
  | .rxPush b => nameOf .rxPush ++ [' '] ++ writeByte b
  | .rxPushn d => nameOf .rxPushn ++ [' '] ++ writeBytes d
  | .rxDec => nameOf .rxDec
  | .rxLvl => nameOf .rxLvl
  | .rxseqRd => nameOf .rxseqRd

end Sys2Proof.Assembler
end

