-- ==== Sys2Proof/Machine/Capacity.lean ====
section
/-! DEFINITION. The machine at a given capacity, which the spec takes as an argument (00_scope.md R3, D9: a claim states which BUF_CAP it assumes). -/

namespace Sys2Proof.Machine

/-- `exec` with the capacity as an argument: only the two push commands read it (R148, R150). -/
def execAt (cap : Option Nat) (i : Instr) (s : State) : Host.Outcome State Fault Refusal :=
  match i with
  | .rxPush b => rxPushAt cap b s
  | .rxPushn d => rxPushnAt cap d s
  | .crcClr => exec .crcClr s
  | .crcUpd b => exec (.crcUpd b) s
  | .crcRd => exec .crcRd s
  | .frmEnc t sq p => exec (.frmEnc t sq p) s
  | .frmSend t p => exec (.frmSend t p) s
  | .seqRd => exec .seqRd s
  | .seqAdv => exec .seqAdv s
  | .rxDec => exec .rxDec s
  | .rxLvl => exec .rxLvl s
  | .rxseqRd => exec .rxseqRd s

end Sys2Proof.Machine
end

