-- ==== Sys2Proof/Machine/Issuer.lean ====
section
/-! DEFINITION. The issuers' side of the port: runs of command lists (00_scope.md R8), the serialization of several issuers (20_memory.md R59,
R60), arriving bytes (30_encoding.md R80), and the pseudo-instructions (R88). -/

namespace Sys2Proof.Machine

/-- The commands of a list in order, each by `f`. -/
def runWith (f : Instr → State → Host.Outcome State Fault Refusal) :
    List Instr → State → Host.Outcome State Fault Refusal
  | [], s => .next s
  | i :: is, s => andThen (f i s) (runWith f is)

/-- A run of the block (R8): the commands applied in order. -/
def runCommands (is : List Instr) (s : State) : Host.Outcome State Fault Refusal := runWith exec is s

/-- A run of the block at a given capacity (R3, R8). -/
def runAt (cap : Option Nat) (is : List Instr) (s : State) : Host.Outcome State Fault Refusal := runWith (execAt cap) is s

/-- `k` steps of the block at its port. -/
def runSteps : Nat → State → Host.Outcome State Fault Refusal
  | 0, s => .next s
  | k + 1, s => andThen (step s) (runSteps k)

/-- What a run shows (R8): the responses and TXOUT. -/
def observe (s : State) : List Response × List Byte := (s.responses, s.txout)

/-- The port's byte stream for a list of commands: each starts after the last byte of the one before (R80). -/
def commandStream (is : List Instr) : List Byte := is.flatMap encode

/-- Bytes on their way to the port, one input each (R80). -/
def byteInputs (bs : List Byte) : List Input := bs.map Input.byte

/-- The queues of commands with the head of queue `k` taken off: the command, if there is one, and the queues left. -/
def takeFrom (k : Nat) (queues : List (List Instr)) : Option (Instr × List (List Instr)) :=
  match queues[k]? with
  | some (i :: is) => some (i, queues.set k is)
  | some [] => none
  | none => none

/-- The single order in which the port accepts the commands of several issuers (R59, R60): `schedule` says whose whole command is next; an
issuer with nothing left is passed over. -/
def serialize : List Nat → List (List Instr) → List Instr
  | [], _ => []
  | k :: schedule, queues =>
    match takeFrom k queues with
    | none => serialize schedule queues
    | some r => r.1 :: serialize schedule r.2

/-- `crc.calc [b1 .. bk]` (R88). -/
def crcCalc (bs : List Byte) : List Instr := .crcClr :: bs.map Instr.crcUpd ++ [.crcRd]

/-- The chunks of `rx.write`, each at most `size` bytes, at most `fuel` of them. -/
def chunks (size : Nat) : Nat → List Byte → List (List Byte)
  | 0, _ => []
  | _ + 1, [] => []
  | fuel + 1, b :: bs => (b :: bs).take size :: chunks size fuel ((b :: bs).drop size)

/-- `rx.write [d]` (R88): RX.PUSHN of consecutive chunks of at most 65535 bytes. DESIGN CHOICE (log 17): R88 leaves the sizes open; every chunk
but the last has exactly 65535 bytes, and an empty list gives no command at all. -/
def rxWrite (d : List Byte) : List Instr := (chunks 65535 d.length d).map Instr.rxPushn

/-- The status of the newest response. -/
def lastStatus (s : State) : Option Status := s.responses.getLast?.map Response.status

/-- `frm.encnext t, [p]` (R88): three commands, not atomic (R237). SEQ.RD gives the sequence number, and SEQ.ADV follows only an OK. -/
def frmEncNext (t : Byte) (p : List Byte) (s : State) : Host.Outcome State Fault Refusal :=
  andThen (exec .seqRd s) fun s1 =>
    match s1.responses.getLast? with
    | some (.seq sq) => andThen (exec (.frmEnc t sq p) s1) fun s2 =>
        if lastStatus s2 = some .ok then exec .seqAdv s2 else .next s2
    | _ => .next s1

/-- `rx.drain` (R88): RX.DEC while its status is PACKET or CRC_MISMATCH. With at most `fuel` commands: the state after the first NEED_MORE
and how many commands it took, or nothing where the fuel ran out first. -/
def rxDrain : Nat → State → Option (State × Nat)
  | 0, _ => none
  | fuel + 1, s =>
    match exec .rxDec s with
    | .fault _ => none
    | .refused _ => none
    | .next t =>
      match lastStatus t with
      | some .packet => (rxDrain fuel t).map fun r => (r.1, r.2 + 1)
      | some .crcMismatch => (rxDrain fuel t).map fun r => (r.1, r.2 + 1)
      | _ => some (t, 1)

end Sys2Proof.Machine
end

