-- ==== Sys2Proof/Safety.lean ====
section
/-! DEFINITION. The words the statements are written in: SOF occurrences, the invariants of the state, and the issuers' discipline against
overflow (42_decoder.md R140, R163; 10_state.md R31, R32; 70_reset_and_hazards.md R235). -/

namespace Sys2Proof.Machine

/-- An SOF occurrence at index `k` (R140). -/
abbrev SofAt (bs : List Byte) (k : Nat) : Prop := bs[k]? = some 0x1A ∧ bs[k + 1]? = some 0xCF

/-- No SOF occurrence anywhere: the "non-SOF-matching bytes" of R157. -/
abbrev SofFree (bs : List Byte) : Prop := ∀ k < bs.length, ¬ SofAt bs k

/-- `len(RXBUF) <= c` when the capacity is `c` (R31). -/
def RxBounded (cap : Option Nat) (s : State) : Prop := ∀ c, cap = some c → s.rxbuf.length ≤ c

/-- The sequence number of a PACKET response. -/
def packetSeq? : Response → Option U16
  | .packet _ _ sq _ _ => some sq
  | _ => none

/-- The frame bytes a response reports. -/
def responseFrame : Response → List Byte
  | .frame f => f
  | .sent _ f => f
  | _ => []

/-- The sequence number an FRM.SEND used. -/
def sentSeq? : Response → Option U16
  | .sent sq _ => some sq
  | _ => none

/-- The tracker is set exactly when the run has shown a PACKET (R32), and holds the newest one's sequence number (R185). -/
def TrackerFollowsPackets (s : State) : Prop :=
  s.lastSeqValid = (s.responses.filterMap packetSeq?).getLast?.isSome ∧
    s.lastSeq = ((s.responses.filterMap packetSeq?).getLast?).getD 0x0000

/-- TXOUT is the frames of the responses, whole and in order (R125). -/
def TxoutFollowsResponses (s : State) : Prop := s.txout = s.responses.flatMap responseFrame

/-- A push at capacity `cap` that drops a byte does not find an SOF at the front (the condition of R163). -/
def SafePush (cap : Option Nat) (buf : List Byte) : Prop := cap = some buf.length → ¬ SofAt buf 0

/-- Every push of the bytes `d`, in order, is safe. -/
def SafePushes (cap : Option Nat) : List Byte → List Byte → Prop
  | _, [] => True
  | buf, b :: d => SafePush cap buf ∧ SafePushes cap (pushByte cap buf b).1 d

/-- The pushes of one command are safe. -/
def SafeCommand (cap : Option Nat) (i : Instr) (s : State) : Prop :=
  match i with
  | .rxPush b => SafePushes cap s.rxbuf [b]
  | .rxPushn d => SafePushes cap s.rxbuf d
  | _ => True

/-- Whenever a push of the run drops a byte, RXBUF does not begin with `1A CF` (R163). -/
def OverflowSafe (cap : Option Nat) : List Instr → State → Prop
  | [], _ => True
  | i :: is, s => SafeCommand cap i s ∧ ∀ t, execAt cap i s = .next t → OverflowSafe cap is t

/-- A response without the counts that overflow may change: consumed, level and dropped (R163). -/
def eraseCounts : Response → Response
  | .packet _ t sq p g => .packet 0 t sq p g
  | .needMoreNoSof _ => .needMoreNoSof 0
  | .needMoreIncomplete _ => .needMoreIncomplete 0
  | .crcMismatch _ => .crcMismatch 0
  | .level _ => .level 0
  | .pushed _ => .pushed 0
  | r => r

/-- A byte list with bit `j` of byte `k` inverted (R103, R158). -/
def flipBit (bs : List Byte) (k j : Nat) : List Byte := bs.set k (byteAt bs k ^^^ (1#8 <<< j))

/-- The bytes that the CRC.UPD commands of a list fold in (R107). -/
def updBytes (is : List Instr) : List Byte :=
  is.filterMap fun i => match i with | .crcUpd b => some b | _ => none

/-- Every assigned opcode (R82). -/
def assignedOpcodes : List Byte := [0x01, 0x02, 0x03, 0x10, 0x11, 0x18, 0x19, 0x20, 0x21, 0x22, 0x23, 0x28]

/-- The statuses each command may answer with (R86, R203, R205). -/
def allowedStatus : Instr → List Status
  | .frmEnc _ _ _ => [.ok, .payloadTooLarge]
  | .frmSend _ _ => [.ok, .payloadTooLarge]
  | .rxDec => [.packet, .needMoreNoSof, .needMoreIncomplete, .crcMismatch]
  | _ => [.ok]

/-- The frame that 30_encoding.md R70 lays out, byte by byte. -/
def wireFrame (t : Byte) (sq : U16) (p : List Byte) : List Byte :=
  let hdr := [t, hiByte sq, loByte sq, BitVec.ofNat 8 p.length]
  let c := crc16k (hdr ++ p)
  [0x1A, 0xCF] ++ hdr ++ p ++ [hiByte c, loByte c]

/-- One RX.PUSH and one RX.DEC for every byte (R159). -/
def pushDecEach (bs : List Byte) : List Instr := bs.flatMap fun b => [.rxPush b, .rxDec]

end Sys2Proof.Machine
end

