-- ==== Sys2Proof/Certificates/Slice0/Obligations.lean ====
section
/-! DEFINITION. The statements for the provers, in the order of OBLIGATIONS.json. -/

open Sys2Proof Sys2Proof.Machine

/-! ## Command format and command port -/

/-- 30_encoding.md R80 to R82: no operand bit of any command is lost between the encoder and the port's decoder, whatever bytes follow. -/
def Obligations.DecodeOfEncodeIsTheCommand : Prop :=
  ∀ (i : Instr) (rest : List Byte), i.wellFormed = true → decode (encode i ++ rest) = .command i rest

/-- The other direction: whatever the port takes as a command is the byte string of that command and nothing else (R80, R82). -/
def Obligations.DecodedBytesAreTheEncoding : Prop :=
  ∀ (bs : List Byte) (i : Instr) (rest : List Byte), decode bs = .command i rest →
    i.wellFormed = true ∧ bs = encode i ++ rest

/-- R85: the length of a command by its opcode and count, the hold while bytes are missing, and the three ways on from a held port (nothing
more comes: no step; a byte arrives: it alone is added; the reset input lifts the hold). That arrivals are a list of inputs is the model's
choice (log 3). -/
def Obligations.CommandLengthDecidesArrival : Prop :=
  (∀ op ∈ ([0x01, 0x03, 0x18, 0x19, 0x22, 0x23, 0x28] : List Byte), ∀ bs, commandLength (op :: bs) = some 1) ∧
  (∀ op ∈ ([0x02, 0x20] : List Byte), ∀ bs, commandLength (op :: bs) = some 2) ∧
  (∀ (b1 b2 b3 nH nL : Byte) (bs : List Byte),
    commandLength (0x10 :: b1 :: b2 :: b3 :: nH :: nL :: bs) = some (6 + (nH.toNat * 256 + nL.toNat))) ∧
  (∀ (b1 nH nL : Byte) (bs : List Byte),
    commandLength (0x11 :: b1 :: nH :: nL :: bs) = some (4 + (nH.toNat * 256 + nL.toNat))) ∧
  (∀ (nH nL : Byte) (bs : List Byte), commandLength (0x21 :: nH :: nL :: bs) = some (3 + (nH.toNat * 256 + nL.toNat))) ∧
  (∀ op, op ∉ assignedOpcodes → ∀ bs, commandLength (op :: bs) = some 1) ∧
  (∀ bs, decode bs = .incomplete ↔ ∀ len, commandLength bs = some len → bs.length < len) ∧
  (∀ s : State, decode s.port = .incomplete → s.inputs = [] → ∃ r, step s = .fault r) ∧
  (∀ (s : State) (b : Byte) (later : List Input), decode s.port = .incomplete → s.inputs = .byte b :: later →
    step s = .next { s with port := s.port ++ [b], inputs := later }) ∧
  (∀ (s : State) (later : List Input), decode s.port = .incomplete → s.inputs = .reset :: later →
    ∃ t, step s = .next t ∧ t.port = [])

/-- R83, R202: each of the 244 unassigned opcode bytes is consumed alone and answered ILLEGAL_CMD; nothing else changes, and the next byte
is at the front of the port. -/
def Obligations.UnassignedOpcodeIsIllegalCommand : Prop :=
  ∀ (op : Byte) (rest : List Byte) (s : State), op ∉ assignedOpcodes → s.port = op :: rest →
    step s = .next { s with port := rest, responses := s.responses ++ [.illegalCmd op] }

/-- R82: one word of each format, written out from the layout table, decodes to the command it stands for. -/
def Obligations.OpcodeWordsDecode : Prop :=
  decode [0x01] = .command .crcClr [] ∧
  decode [0x02, 0x31] = .command (.crcUpd 0x31) [] ∧
  decode [0x03] = .command .crcRd [] ∧
  decode [0x10, 0xFF, 0x12, 0x34, 0x00, 0x02, 0xAA, 0xBB] = .command (.frmEnc 0xFF 0x1234 [0xAA, 0xBB]) [] ∧
  decode [0x11, 0x01, 0x00, 0x01, 0x3F, 0x18] = .command (.frmSend 0x01 [0x3F]) [0x18] ∧
  decode [0x18] = .command .seqRd [] ∧
  decode [0x19] = .command .seqAdv [] ∧
  decode [0x20, 0x1A] = .command (.rxPush 0x1A) [] ∧
  decode [0x21, 0x00, 0x03, 0x1A, 0xCF, 0x00] = .command (.rxPushn [0x1A, 0xCF, 0x00]) [] ∧
  decode [0x22] = .command .rxDec [] ∧
  decode [0x23] = .command .rxLvl [] ∧
  decode [0x28] = .command .rxseqRd []

/-- R80: when the bytes at the front of the port are a command's, the step executes it, with exactly those bytes consumed. -/
def Obligations.StepRunsTheArrivedCommand : Prop :=
  ∀ (i : Instr) (rest : List Byte) (s : State), i.wellFormed = true → s.port = encode i ++ rest →
    step s = exec i { s with port := rest }

/-- R239: bytes that the port holds are the start of some command, so every later byte is taken as that command's; and without the missing
bytes nothing executes. -/
def Obligations.HeldBytesAreTheStartOfACommand : Prop :=
  ∀ bs : List Byte, decode bs = .incomplete ↔
    ∃ (i : Instr) (missing : List Byte), i.wellFormed = true ∧ missing ≠ [] ∧ encode i = bs ++ missing

/-- R230: the reset input, between commands, sets every register to its reset value and discards the partly arrived command. That it
is an element of a list of inputs is the model's choice (log 3). -/
def Obligations.ResetInputRestoresRegisters : Prop :=
  ∀ (s : State) (later : List Input), decode s.port = .incomplete → s.inputs = .reset :: later →
    ∃ t, step s = .next t ∧ t.crcAcc = 0x0000 ∧ t.txSeq = 0x0000 ∧ t.rxbuf = [] ∧ t.lastSeqValid = false ∧
      t.lastSeq = 0x0000 ∧ t.port = [] ∧ t.inputs = later

/-- R30: the values after reset. -/
def Obligations.ResetValues : Prop :=
  State.reset.crcAcc = 0x0000 ∧ State.reset.txSeq = 0x0000 ∧ State.reset.rxbuf = [] ∧
    State.reset.lastSeqValid = false ∧ State.reset.lastSeq = 0x0000 ∧ State.reset.txout = []

/-- R59, R80: a byte stream that is the commands of a list one after another, arriving byte by byte, runs exactly that list, each command
whole and in order. -/
def Obligations.ByteStreamRunsTheCommandList : Prop :=
  ∀ (is : List Instr) (s : State) (later : List Input), (∀ i ∈ is, i.wellFormed = true) → s.port = [] →
    s.inputs = byteInputs (commandStream is) ++ later →
    runSteps ((commandStream is).length + is.length) s = runCommands is { s with inputs := later }

/-- R59, R60: the port's order holds exactly the commands that the schedule takes from the issuers, an issuer scheduled `n` times giving its first
`n`, each once and nothing besides; and it keeps each issuer's own order. The schedule as a list is the model's choice (log 11). -/
def Obligations.SerializedIssuersKeepTheirOrder : Prop :=
  ∀ (schedule : List Nat) (queues : List (List Instr)),
    (serialize schedule queues).Perm (queues.mapIdx fun k q => q.take (schedule.count k)).flatten ∧
    ∀ (k : Nat) (q : List Instr), queues[k]? = some q → (q.take (schedule.count k)).Sublist (serialize schedule queues)

/-! ## CRC generator -/

/-- R104, the encoding and the effect. -/
def Obligations.CrcClrClearsTheGenerator : Prop :=
  (∀ rest, decode (0x01 :: rest) = .command .crcClr rest) ∧
  ∀ s : State, exec .crcClr s = .next { s with crcAcc := 0x0000, responses := s.responses ++ [.done] }

/-- R105, the encoding and the effect. -/
def Obligations.CrcUpdFoldsOneByte : Prop :=
  (∀ b rest, decode (0x02 :: b :: rest) = .command (.crcUpd b) rest) ∧
  ∀ (b : Byte) (s : State),
    exec (.crcUpd b) s = .next { s with crcAcc := crcStep s.crcAcc b, responses := s.responses ++ [.done] }

/-- R106, the encoding and the effect. -/
def Obligations.CrcRdReadsTheGenerator : Prop :=
  (∀ rest, decode (0x03 :: rest) = .command .crcRd rest) ∧
  ∀ s : State, exec .crcRd s = .next { s with responses := s.responses ++ [.crc s.crcAcc] }

/-- R107: after CRC.CLR and any commands without another CRC.CLR, the generator holds the CRC of the bytes the CRC.UPD commands gave, whatever
other commands came between them. -/
def Obligations.GeneratorHoldsTheCrcOfItsUpdates : Prop :=
  ∀ (is : List Instr) (s : State), Instr.crcClr ∉ is →
    ∃ t, runCommands (.crcClr :: is) s = .next t ∧ t.crcAcc = crc16k (updBytes is)

/-- R103, all four properties: the empty list, the incremental property, leading zeros, and every single-bit change. -/
def Obligations.CrcPropertiesHold : Prop :=
  crc16k [] = 0x0000 ∧
  (∀ bs cs : List Byte, crc16k (bs ++ cs) = cs.foldl crcStep (crc16k bs)) ∧
  (∀ bs : List Byte, crc16k (0x00 :: bs) = crc16k bs) ∧
  (∀ (bs : List Byte) (k j : Nat), k < bs.length → j < 8 → crc16k (flipBit bs k j) ≠ crc16k bs)

/-- R102: the reflected register that the block uses computes the CRC of the parameter model (reflect in, most significant bit first, reflect
out), which is the polynomial remainder; and the check value. How the two other forms are read is the model's reading (log 13). -/
def Obligations.KermitFormsAgree : Prop :=
  (∀ bs : List Byte, crc16k bs = crcModel 0x1021 0x0000 true true 0x0000 bs) ∧
  (∀ bs : List Byte, crc16k bs = crcPolynomial bs) ∧
  crc16k [0x31, 0x32, 0x33, 0x34, 0x35, 0x36, 0x37, 0x38, 0x39] = 0x2189

/-- R108: a command that is not a CRC command neither writes `CRC_ACC` nor depends on it. -/
def Obligations.FramingAndGeneratorDoNotInterfere : Prop :=
  ∀ (i : Instr) (s : State) (c : U16), i ≠ .crcClr → (∀ b, i ≠ .crcUpd b) → i ≠ .crcRd →
    ∃ t, exec i s = .next t ∧ t.crcAcc = s.crcAcc ∧ exec i { s with crcAcc := c } = .next { t with crcAcc := c }

/-! ## Frame encoder and transmit counter -/

/-- R70, R72, R73, R74: an encoded frame is 8 + N bytes and holds each field at its offset, big-endian, the CRC over bytes 2 to 6 + N. -/
def Obligations.EncodedFrameHasTheWireLayout : Prop :=
  ∀ (t : Byte) (sq : U16) (p : List Byte), p.length ≤ 255 →
    ∃ f, encodeFrame t sq p = some f ∧ f.length = 8 + p.length ∧ byteAt f 0 = 0x1A ∧ byteAt f 1 = 0xCF ∧ byteAt f 2 = t ∧
      (byteAt f 3).toNat = sq.toNat / 256 ∧ (byteAt f 4).toNat = sq.toNat % 256 ∧ (byteAt f 5).toNat = p.length ∧
      slice f 6 (6 + p.length) = p ∧
      (byteAt f (6 + p.length)).toNat = (crc16k (slice f 2 (6 + p.length))).toNat / 256 ∧
      (byteAt f (7 + p.length)).toNat = (crc16k (slice f 2 (6 + p.length))).toNat % 256

/-- R121, R201: exactly the payloads of more than 255 bytes fail closed: the encoder builds nothing, the response of both commands records the
length, nothing else changes, and no other command answers so. -/
def Obligations.OversizePayloadFailsClosed : Prop :=
  (∀ (t : Byte) (sq : U16) (p : List Byte), encodeFrame t sq p = none ↔ 255 < p.length) ∧
  (∀ (t : Byte) (sq : U16) (p : List Byte) (s : State), 255 < p.length →
    exec (.frmEnc t sq p) s = .next { s with responses := s.responses ++ [.payloadTooLarge p.length] } ∧
    exec (.frmSend t p) s = .next { s with responses := s.responses ++ [.payloadTooLarge p.length] }) ∧
  ∀ (i : Instr) (s t : State), exec i s = .next t → lastStatus t = some .payloadTooLarge →
    (∃ ty sq p, i = .frmEnc ty sq p ∧ 255 < p.length) ∨ ∃ ty p, i = .frmSend ty p ∧ 255 < p.length

/-- R122: the encoding, with the count before the payload; an accepted payload is emitted and responded as the frame; a longer one is
answered PAYLOAD_TOO_LARGE. Nothing else changes. -/
def Obligations.FrmEncEmitsTheFrame : Prop :=
  (∀ (t sH sL nH nL : Byte) (p rest : List Byte), p.length = nH.toNat * 256 + nL.toNat →
    decode (0x10 :: t :: sH :: sL :: nH :: nL :: (p ++ rest)) =
      .command (.frmEnc t (BitVec.ofNat 16 (sH.toNat * 256 + sL.toNat)) p) rest) ∧
  ∀ (t : Byte) (sq : U16) (p : List Byte) (s : State),
    (p.length ≤ 255 → exec (.frmEnc t sq p) s =
      .next { s with txout := s.txout ++ wireFrame t sq p, responses := s.responses ++ [.frame (wireFrame t sq p)] }) ∧
    (255 < p.length → exec (.frmEnc t sq p) s = .next { s with responses := s.responses ++ [.payloadTooLarge p.length] })

/-- R123: the encoding; an accepted payload's frame carries `TX_SEQ`, which then advances mod 65536; a longer payload is answered
PAYLOAD_TOO_LARGE and uses up no sequence number. Nothing else changes. -/
def Obligations.FrmSendEmitsAndAdvances : Prop :=
  (∀ (t nH nL : Byte) (p rest : List Byte), p.length = nH.toNat * 256 + nL.toNat →
    decode (0x11 :: t :: nH :: nL :: (p ++ rest)) = .command (.frmSend t p) rest) ∧
  ∀ (t : Byte) (p : List Byte) (s : State),
    (p.length ≤ 255 → exec (.frmSend t p) s =
      .next { s with
        txSeq := BitVec.ofNat 16 ((s.txSeq.toNat + 1) % 65536)
        txout := s.txout ++ wireFrame t s.txSeq p
        responses := s.responses ++ [.sent s.txSeq (wireFrame t s.txSeq p)] }) ∧
    (255 < p.length → exec (.frmSend t p) s = .next { s with responses := s.responses ++ [.payloadTooLarge p.length] })

/-- R124: what FRM.ENC emits and answers is fixed by its operands, whatever the state. -/
def Obligations.FrmEncKeepsNoState : Prop :=
  ∀ (t : Byte) (sq : U16) (p : List Byte), ∃ (out : List Byte) (r : Response), ∀ s : State,
    exec (.frmEnc t sq p) s = .next { s with txout := s.txout ++ out, responses := s.responses ++ [r] }

/-- R181, the encoding and the effect. -/
def Obligations.SeqRdReadsTheCounter : Prop :=
  (∀ rest, decode (0x18 :: rest) = .command .seqRd rest) ∧
  ∀ s : State, exec .seqRd s = .next { s with responses := s.responses ++ [.seq s.txSeq] }

/-- R182, the encoding and the effect. -/
def Obligations.SeqAdvAdvancesTheCounter : Prop :=
  (∀ rest, decode (0x19 :: rest) = .command .seqAdv rest) ∧
  ∀ s : State, exec .seqAdv s =
    .next { s with txSeq := BitVec.ofNat 16 ((s.txSeq.toNat + 1) % 65536), responses := s.responses ++ [.done] }

/-- The sender's half of R188: in any run without SEQ.ADV, the FRM.SEND commands that succeed carry consecutive sequence numbers from `TX_SEQ` on,
and up to 65536 of them are pairwise distinct, whichever issuers sent them. -/
def Obligations.SendsCarryConsecutiveSequences : Prop :=
  ∀ (is : List Instr) (s : State), Instr.seqAdv ∉ is →
    ∃ t rs, runCommands is s = .next t ∧ t.responses = s.responses ++ rs ∧
      rs.filterMap sentSeq? =
        (List.range (rs.filterMap sentSeq?).length).map (fun k => BitVec.ofNat 16 (s.txSeq.toNat + k)) ∧
      ((rs.filterMap sentSeq?).length ≤ 65536 → (rs.filterMap sentSeq?).Nodup)

/-! ## Receive buffer -/

/-- R148, R149: a push appends its byte; at the capacity it first drops the oldest one, and the length stays. The instruction runs at the
configured capacity, which R3 makes unbounded or at least 263; that it is one opaque constant is the model's choice (log 6). -/
def Obligations.RxPushAppendsAndDropsOldest : Prop :=
  (∀ b rest, decode (0x20 :: b :: rest) = .command (.rxPush b) rest) ∧
  (∀ (cap : Option Nat) (b : Byte) (s : State), cap ≠ some s.rxbuf.length →
    execAt cap (.rxPush b) s =
      .next { s with rxbuf := s.rxbuf ++ [b], responses := s.responses ++ [.pushed 0] }) ∧
  (∀ (c : Nat) (b old : Byte) (kept : List Byte) (s : State), s.rxbuf = old :: kept → s.rxbuf.length = c →
    execAt (some c) (.rxPush b) s =
      .next { s with rxbuf := kept ++ [b], responses := s.responses ++ [.pushed 1] } ∧ (kept ++ [b]).length = c) ∧
  (∀ (b : Byte) (s : State), exec (.rxPush b) s = execAt Config.bufCap.cap (.rxPush b) s) ∧
  (∀ c, Config.bufCap.cap = some c → 263 ≤ c)

/-- R150: RX.PUSHN is its bytes pushed in order, the dropped counts added, in one step with one response; splitting the bytes into RX.PUSHN chunks of
any sizes gives the same RXBUF and the same total. The instruction runs at the configured capacity of R3; that it is one opaque constant is the
model's choice (log 6). -/
def Obligations.RxPushnIsItsPushesInOrder : Prop :=
  (∀ (nH nL : Byte) (d rest : List Byte), d.length = nH.toNat * 256 + nL.toNat →
    decode (0x21 :: nH :: nL :: (d ++ rest)) = .command (.rxPushn d) rest) ∧
  (∀ (d : List Byte) (s : State), ∃ t, exec (.rxPushn d) s = .next t ∧ exec (.rxPushn d) s = execAt Config.bufCap.cap (.rxPushn d) s) ∧
  (∀ (cap : Option Nat) (d : List Byte) (s : State), ∃ (u : State) (ks : List Nat),
    runAt cap (d.map Instr.rxPush) s = .next u ∧ ks.length = d.length ∧ u.responses = s.responses ++ ks.map Response.pushed ∧
    execAt cap (.rxPushn d) s = .next { s with rxbuf := u.rxbuf, responses := s.responses ++ [.pushed ks.sum] }) ∧
  (∀ (cap : Option Nat) (ds : List (List Byte)) (s : State), ∃ (u : State) (ks : List Nat),
    runAt cap (ds.map Instr.rxPushn) s = .next u ∧ u.responses = s.responses ++ ks.map Response.pushed ∧
    execAt cap (.rxPushn ds.flatten) s = .next { s with rxbuf := u.rxbuf, responses := s.responses ++ [.pushed ks.sum] })

/-- R152, the encoding and the effect. -/
def Obligations.RxLvlReadsTheLength : Prop :=
  (∀ rest, decode (0x23 :: rest) = .command .rxLvl rest) ∧
  ∀ s : State, exec .rxLvl s = .next { s with responses := s.responses ++ [.level s.rxbuf.length] }

/-- R31, from every state within the bound, not only on runs from reset: a step keeps `len(RXBUF) <= c` at the configured capacity; and reset meets it. -/
def Obligations.StepKeepsTheBufferWithinCapacity : Prop :=
  RxBounded Config.bufCap.cap State.reset ∧
  ∀ s t : State, RxBounded Config.bufCap.cap s → step s = .next t → RxBounded Config.bufCap.cap t

/-! ## Stream decoder -/

/-- R140: `find_sof` is the least index of an SOF occurrence, and none exactly when there is no occurrence. -/
def Obligations.FindSofIsTheLeastOccurrence : Prop :=
  ∀ buf : List Byte, (findSof buf = none ↔ ∀ k, ¬ SofAt buf k) ∧
    ∀ k, findSof buf = some k ↔ SofAt buf k ∧ ∀ j < k, ¬ SofAt buf j

/-- R142 to R145: the four results of a decode attempt, by what the buffer holds. -/
def Obligations.DecodeAttemptByWhatTheBufferHolds : Prop :=
  ∀ buf : List Byte,
    ((∀ k, ¬ SofAt buf k) → tryDecode buf = .needMoreNoSof) ∧
    ∀ i, SofAt buf i → (∀ j < i, ¬ SofAt buf j) →
      let len := (byteAt buf (i + 5)).toNat
      (buf.length - i < 8 ∨ buf.length - i < 8 + len → tryDecode buf = .needMoreIncomplete i) ∧
      (8 ≤ buf.length - i → 8 + len ≤ buf.length - i →
        (crc16k (slice buf (i + 2) (i + 6 + len)) = be16 (byteAt buf (i + 6 + len)) (byteAt buf (i + 7 + len)) →
          tryDecode buf = .packet (i + 8 + len)
            ⟨byteAt buf (i + 2), be16 (byteAt buf (i + 3)) (byteAt buf (i + 4)), slice buf (i + 6) (i + 6 + len)⟩ ∧
          (slice buf (i + 6) (i + 6 + len)).length = len) ∧
        (crc16k (slice buf (i + 2) (i + 6 + len)) ≠ be16 (byteAt buf (i + 6 + len)) (byteAt buf (i + 7 + len)) →
          tryDecode buf = .crcMismatch (i + 8 + len)))

/-- R151, R185: the encoding; RX.DEC drops what the attempt consumed and answers its status; only a packet writes the tracker, and its gap is reported
against the tracker as it was. Nothing else changes. -/
def Obligations.RxDecDropsAndTracks : Prop :=
  (∀ rest, decode (0x22 :: rest) = .command .rxDec rest) ∧
  ∀ s : State,
    (tryDecode s.rxbuf = .needMoreNoSof →
      exec .rxDec s = .next { s with responses := s.responses ++ [.needMoreNoSof 0] }) ∧
    (∀ k, tryDecode s.rxbuf = .needMoreIncomplete k →
      exec .rxDec s = .next { s with rxbuf := s.rxbuf.drop k, responses := s.responses ++ [.needMoreIncomplete k] }) ∧
    (∀ k, tryDecode s.rxbuf = .crcMismatch k →
      exec .rxDec s = .next { s with rxbuf := s.rxbuf.drop k, responses := s.responses ++ [.crcMismatch k] }) ∧
    (∀ k pkt, tryDecode s.rxbuf = .packet k pkt →
      exec .rxDec s = .next { s with
        rxbuf := s.rxbuf.drop k
        lastSeqValid := true
        lastSeq := pkt.sequence
        responses := s.responses ++ [.packet k pkt.ptype pkt.sequence pkt.payload
          (if s.lastSeqValid then some (pkt.sequence - (s.lastSeq + 1)) else none)] })

/-- R146: what each result consumes, within the buffer; NEED_MORE_INCOMPLETE consumes exactly the bytes before the first SOF, so none exactly when
the SOF is at the front. -/
def Obligations.AttemptConsumesWithinTheBuffer : Prop :=
  ∀ buf : List Byte, (tryDecode buf).consumed ≤ buf.length ∧
    (tryDecode buf = .needMoreNoSof → (tryDecode buf).consumed = 0) ∧
    (∀ k, tryDecode buf = .needMoreIncomplete k →
      findSof buf = some k ∧ k + 2 ≤ buf.length ∧ (0 < (tryDecode buf).consumed ↔ ¬ SofAt buf 0)) ∧
    (∀ k pkt, tryDecode buf = .packet k pkt →
      ∃ i, findSof buf = some i ∧ k = i + 8 + (byteAt buf (i + 5)).toNat ∧ 8 ≤ (tryDecode buf).consumed) ∧
    (∀ k, tryDecode buf = .crcMismatch k →
      ∃ i, findSof buf = some i ∧ k = i + 8 + (byteAt buf (i + 5)).toNat ∧ 8 ≤ (tryDecode buf).consumed)

/-- R153: what RXBUF holds after a NEED_MORE. -/
def Obligations.BufferAfterNeedMore : Prop :=
  ∀ s : State, ∃ t, exec .rxDec s = .next t ∧
    (lastStatus t = some .needMoreNoSof → t.rxbuf = s.rxbuf ∧ ∀ k, ¬ SofAt t.rxbuf k) ∧
    (lastStatus t = some .needMoreIncomplete → SofAt t.rxbuf 0 ∧ t.rxbuf.length ≤ 262 ∧
      (t.rxbuf.length < 8 ∨ 8 ≤ t.rxbuf.length ∧ t.rxbuf.length < 8 + (byteAt t.rxbuf 5).toNat))

/-- R154: after a NEED_MORE, RX.DEC again gives the same status, consumes nothing and changes nothing. -/
def Obligations.RxDecIsIdempotentAfterNeedMore : Prop :=
  ∀ s : State, ∃ t, exec .rxDec s = .next t ∧
    (lastStatus t = some .needMoreNoSof →
      exec .rxDec t = .next { t with responses := t.responses ++ [.needMoreNoSof 0] }) ∧
    (lastStatus t = some .needMoreIncomplete →
      exec .rxDec t = .next { t with responses := t.responses ++ [.needMoreIncomplete 0] })

/-- R155: a PACKET or CRC_MISMATCH removes at least 8 bytes, so `rx.drain` ends with a NEED_MORE within `floor(len(RXBUF) / 8) + 1` commands. -/
def Obligations.DrainEndsWithinItsBound : Prop :=
  (∀ s : State, ∃ t, exec .rxDec s = .next t ∧
    (lastStatus t = some .packet ∨ lastStatus t = some .crcMismatch → t.rxbuf.length + 8 ≤ s.rxbuf.length)) ∧
  (∀ s : State, ∃ t k, rxDrain (s.rxbuf.length / 8 + 1) s = some (t, k) ∧ k ≤ s.rxbuf.length / 8 + 1 ∧
    (lastStatus t = some .needMoreNoSof ∨ lastStatus t = some .needMoreIncomplete))

/-- R156: every frame the encoder builds, alone in RXBUF, decodes to its own fields. -/
def Obligations.EncodedFrameDecodesToItsFields : Prop :=
  ∀ (t : Byte) (sq : U16) (p : List Byte) (s : State), p.length ≤ 255 → s.rxbuf = wireFrame t sq p →
    encodeFrame t sq p = some (wireFrame t sq p) ∧
    exec .rxDec s = .next { s with
      rxbuf := []
      lastSeqValid := true
      lastSeq := sq
      responses := s.responses ++ [.packet (8 + p.length) t sq p
        (if s.lastSeqValid then some (sq - (s.lastSeq + 1)) else none)] }

/-- R157: bytes without an SOF occurrence before a valid frame do not change the packet, and are consumed with it. -/
def Obligations.GarbagePrefixIsTolerated : Prop :=
  ∀ (g : List Byte) (t : Byte) (sq : U16) (p : List Byte), SofFree g → p.length ≤ 255 →
    tryDecode (wireFrame t sq p) = .packet (wireFrame t sq p).length ⟨t, sq, p⟩ ∧
    tryDecode (g ++ wireFrame t sq p) = .packet (g.length + (wireFrame t sq p).length) ⟨t, sq, p⟩

/-- R160: two frames back to back are decoded one at a time, and then nothing is left. -/
def Obligations.BackToBackFramesDecodeInTurn : Prop :=
  ∀ (t1 t2 : Byte) (q1 q2 : U16) (p1 p2 : List Byte) (s : State), p1.length ≤ 255 → p2.length ≤ 255 →
    s.rxbuf = wireFrame t1 q1 p1 ++ wireFrame t2 q2 p2 →
    ∃ u, runCommands [.rxDec, .rxDec, .rxDec] s = .next u ∧ u.rxbuf = [] ∧
      u.responses = s.responses ++
        [.packet (wireFrame t1 q1 p1).length t1 q1 p1 (if s.lastSeqValid then some (q1 - (s.lastSeq + 1)) else none),
         .packet (wireFrame t2 q2 p2).length t2 q2 p2 (some (q2 - (q1 + 1))), .needMoreNoSof 0]

/-- R158: one inverted bit in the type, sequence, payload or checksum bytes of a frame alone in RXBUF is always reported as a mismatch of the whole
frame, and no packet is accepted. -/
def Obligations.SingleBitCorruptionIsDetected : Prop :=
  ∀ (t : Byte) (sq : U16) (p : List Byte) (k j : Nat) (s : State), p.length ≤ 255 →
    (2 ≤ k ∧ k < 5 ∨ 6 ≤ k ∧ k < (wireFrame t sq p).length) → j < 8 → s.rxbuf = flipBit (wireFrame t sq p) k j →
    exec .rxDec s = .next { s with
      rxbuf := [], responses := s.responses ++ [.crcMismatch (wireFrame t sq p).length] }

/-- R159: garbage and a frame delivered one byte at a time, with an RX.DEC after every byte: the garbage goes when the SOF is complete, and there is
exactly one packet, on the last byte. At a capacity that holds the garbage and one frame. -/
def Obligations.PartialDeliveryGivesOnePacket : Prop :=
  ∀ (cap : Option Nat) (g : List Byte) (t : Byte) (sq : U16) (p : List Byte) (s : State),
    SofFree g → p.length ≤ 255 → s.rxbuf = [] → (∀ c, cap = some c → 263 ≤ c ∧ g.length + 2 ≤ c) →
    let answers : List Response :=
      List.replicate (g.length + 1) (.needMoreNoSof 0) ++ [.needMoreIncomplete g.length] ++
        List.replicate ((wireFrame t sq p).length - 3) (.needMoreIncomplete 0) ++
        [.packet (wireFrame t sq p).length t sq p (if s.lastSeqValid then some (sq - (s.lastSeq + 1)) else none)]
    ∃ u, runAt cap (pushDecEach (g ++ wireFrame t sq p)) s = .next u ∧ u.rxbuf = [] ∧
      u.responses = s.responses ++ answers.flatMap fun r => [.pushed 0, r]

/-- R163: while no drop destroys an SOF at the front of RXBUF, a bounded buffer answers every command as an unbounded one does, but for the
counts consumed, level and dropped, and leaves the same TXOUT and the same registers except RXBUF: the bounded RXBUF is the unbounded one
without some bytes at its front. -/
def Obligations.SafeOverflowKeepsEveryPacket : Prop :=
  ∀ (c : Nat) (is : List Instr) (s : State), 263 ≤ c → OverflowSafe (some c) is s →
    ∃ t u, runAt (some c) is s = .next t ∧ runAt none is s = .next u ∧
      t.responses.map eraseCounts = u.responses.map eraseCounts ∧ t.txout = u.txout ∧ t.crcAcc = u.crcAcc ∧
      t.txSeq = u.txSeq ∧ t.lastSeqValid = u.lastSeqValid ∧ t.lastSeq = u.lastSeq ∧ t.rxbuf <:+ u.rxbuf

/-- The two disciplines of R163: after `rx.drain`, pushing one byte, or at most `c - 262` bytes, is safe. -/
def Obligations.DrainingMakesPushesSafe : Prop :=
  ∀ (c fuel k : Nat) (s t : State) (d : List Byte), 263 ≤ c → rxDrain fuel s = some (t, k) → d.length ≤ c - 262 →
    SafePushes (some c) t.rxbuf d

/-- R164: RX.DEC's response projects onto TC's `(Packet | None, bytes_consumed)`. -/
def Obligations.RxDecProjectsToTheDecoderContract : Prop :=
  ∀ s : State, ∃ t r, exec .rxDec s = .next t ∧ t.responses = s.responses ++ [r] ∧
    tcResult r = some (tryDecode s.rxbuf).projection ∧
    (r.status = .packet ↔ ∃ pkt, (tryDecode s.rxbuf).projection.1 = some pkt)

/-! ## Receive tracker -/

/-- R186, the encoding and the effect. -/
def Obligations.RxseqRdReadsTheTracker : Prop :=
  (∀ rest, decode (0x28 :: rest) = .command .rxseqRd rest) ∧
  ∀ s : State, exec .rxseqRd s = .next { s with responses := s.responses ++ [.tracker s.lastSeqValid s.lastSeq] }

/-- R184 as integer arithmetic, for every pair of values, and the corner cases of R187's table. -/
def Obligations.GapIsTheFormulaModulo65536 : Prop :=
  (∀ last sq : U16, ((gapOf last sq).toNat : Int) = ((sq.toNat : Int) - (last.toNat + 1)) % 65536) ∧
  gapOf 5 6 = 0 ∧ gapOf 6 10 = 3 ∧ gapOf 65535 0 = 0 ∧ gapOf 65535 2 = 2 ∧ gapOf 10 10 = 65535 ∧ gapOf 10 9 = 65534 ∧
  gapOf 0 65535 = 65534

/-- R32 and R185 as an invariant: in every state where the tracker agrees with the PACKET responses of the run (valid exactly when there is
one, holding the newest one's sequence number), a step keeps it so; and reset meets it. -/
def Obligations.StepKeepsTheTrackerOnTheNewestPacket : Prop :=
  TrackerFollowsPackets State.reset ∧
  ∀ s t : State, TrackerFollowsPackets s → step s = .next t → TrackerFollowsPackets t

/-- R188, end to end: frames that FRM.SEND emits from any counter value, delivered in order to a receiver that has accepted nothing, are
accepted in order, with gap `none` first and 0 ever after, across the sequence wrap and at any capacity. -/
def Obligations.LoopbackDeliversEveryFrameInOrder : Prop :=
  ∀ (msgs : List (Byte × List Byte)) (s r : State), (∀ m ∈ msgs, m.2.length ≤ 255) → r.rxbuf = [] → r.lastSeqValid = false →
    let frames := msgs.mapIdx fun k m => wireFrame m.1 (BitVec.ofNat 16 (s.txSeq.toNat + k)) m.2
    (∃ t, runCommands (msgs.map fun m => .frmSend m.1 m.2) s = .next t ∧ t.txout = s.txout ++ frames.flatten) ∧
    ∃ u, runCommands (frames.flatMap fun f => [.rxPushn f, .rxDec]) r = .next u ∧
      u.responses = r.responses ++ (msgs.mapIdx fun k m =>
        [.pushed 0, .packet (8 + m.2.length) m.1 (BitVec.ofNat 16 (s.txSeq.toNat + k)) m.2
          (if k = 0 then none else some 0)]).flatten

/-! ## The whole machine -/

/-- R86: every command completes, with exactly one response added, of a status that command may have. -/
def Obligations.EveryCommandAnswersOnce : Prop :=
  ∀ (i : Instr) (s : State), ∃ t r, exec i s = .next t ∧ t.responses = s.responses ++ [r] ∧ r.status ∈ allowedStatus i

/-- The status codes of R86, for every shape of response. -/
def Obligations.StatusCodesOfResponses : Prop :=
  Response.done.status.code = 0x00 ∧
  (∀ c, (Response.crc c).status.code = 0x00) ∧
  (∀ f, (Response.frame f).status.code = 0x00) ∧
  (∀ sq f, (Response.sent sq f).status.code = 0x00) ∧
  (∀ sq, (Response.seq sq).status.code = 0x00) ∧
  (∀ n, (Response.pushed n).status.code = 0x00) ∧
  (∀ n, (Response.level n).status.code = 0x00) ∧
  (∀ v last, (Response.tracker v last).status.code = 0x00) ∧
  (∀ k t sq p g, (Response.packet k t sq p g).status.code = 0x01) ∧
  (∀ k, (Response.needMoreNoSof k).status.code = 0x02) ∧
  (∀ k, (Response.needMoreIncomplete k).status.code = 0x03) ∧
  (∀ k, (Response.crcMismatch k).status.code = 0x04) ∧
  (∀ n, (Response.payloadTooLarge n).status.code = 0x80) ∧
  (∀ op, (Response.illegalCmd op).status.code = 0x81)

/-- R200: a step that answers with an error writes no register and appends nothing to TXOUT; only the port and the response list move. -/
def Obligations.FailedCommandLeavesNoEffect : Prop :=
  ∀ (s t : State) (r : Response), step s = .next t → t.responses = s.responses ++ [r] → r.status.isError = true →
    t = { s with port := t.port, responses := s.responses ++ [r] } ∧ t.port.length < s.port.length

/-- The writers of each register and output (R23 to R27, R29): what a command may change, over all commands. -/
def Obligations.OnlyTheNamedCommandsWriteEachRegister : Prop :=
  ∀ (i : Instr) (s t : State), exec i s = .next t →
    (t.crcAcc ≠ s.crcAcc → i = .crcClr ∨ ∃ b, i = .crcUpd b) ∧
    (t.txSeq ≠ s.txSeq → i = .seqAdv ∨ ∃ ty p, i = .frmSend ty p ∧ p.length ≤ 255) ∧
    (t.rxbuf ≠ s.rxbuf → (∃ b, i = .rxPush b) ∨ (∃ d, i = .rxPushn d) ∨ i = .rxDec) ∧
    (t.lastSeqValid ≠ s.lastSeqValid ∨ t.lastSeq ≠ s.lastSeq → i = .rxDec ∧ lastStatus t = some .packet) ∧
    (t.txout ≠ s.txout → (∃ ty sq p, i = .frmEnc ty sq p ∧ p.length ≤ 255) ∨ ∃ ty p, i = .frmSend ty p ∧ p.length ≤ 255) ∧
    t.port = s.port ∧ t.inputs = s.inputs

/-- R58: the read-only commands change nothing but the response list, and answer the same when repeated. -/
def Obligations.ReadCommandsHaveNoSideEffect : Prop :=
  ∀ i ∈ [Instr.crcRd, .seqRd, .rxLvl, .rxseqRd], ∀ s : State, ∃ r : Response,
    exec i s = .next { s with responses := s.responses ++ [r] } ∧
    runCommands [i, i] s = .next { s with responses := s.responses ++ [r, r] }

/-- R29, R125 as an invariant: in every state where TXOUT is the frames of the responses, whole and in order, a step keeps it so; and reset meets it. -/
def Obligations.StepKeepsTxoutTheFramesOfTheResponses : Prop :=
  TxoutFollowsResponses State.reset ∧
  ∀ s t : State, TxoutFollowsResponses s → step s = .next t → TxoutFollowsResponses t

/-- R29: nothing but the reset input removes a byte from TXOUT or a response from the run. -/
def Obligations.OutputsOnlyGrow : Prop :=
  ∀ s t : State, step s = .next t → ¬ (decode s.port = .incomplete ∧ ∃ later, s.inputs = .reset :: later) →
    s.txout <+: t.txout ∧ s.responses <+: t.responses

/-! ## Issuer side -/

/-- R88: `crc.calc` ends with the CRC of its bytes; `rx.write`, with the model's choice of chunks (log 17), has the effect of one push per byte;
`frm.encnext`, run alone (log 16), sends with the current number and then advances it. -/
def Obligations.PseudoInstructionsHaveTheirEffect : Prop :=
  (∀ (bs : List Byte) (s : State), ∃ t, runCommands (crcCalc bs) s = .next t ∧ t.responses.getLast? = some (.crc (crc16k bs))) ∧
  (∀ (cap : Option Nat) (d : List Byte) (s : State), (∀ i ∈ rxWrite d, i.wellFormed = true) ∧
    ∃ t u, runAt cap (rxWrite d) s = .next t ∧ runAt cap (d.map Instr.rxPush) s = .next u ∧ t.rxbuf = u.rxbuf) ∧
  (∀ (t : Byte) (p : List Byte) (s : State), p.length ≤ 255 → ∃ u, frmEncNext t p s = .next u ∧
    u.txout = s.txout ++ wireFrame t s.txSeq p ∧ u.txSeq = s.txSeq + 1) ∧
  (∀ (t : Byte) (p : List Byte) (s : State), 255 < p.length → ∃ u, frmEncNext t p s = .next u ∧
    u.txout = s.txout ∧ u.txSeq = s.txSeq)

/-- R87: the assembler reads every well-formed command back from the line that writes it, with every operand. -/
def Obligations.AssemblerReadsWhatIsWritten : Prop :=
  ∀ i : Instr, i.wellFormed = true → Assembler.assemble (Assembler.write i) = some i
end

