-- ==== Sys2Proof/Laws/Assembler.lean ====
section
/-! SUPPORT. The small facts of the assembler's reader and writer: mnemonics, spaces, hexadecimal digits. -/

namespace Sys2Proof.Assembler

theorem nameOf_no_space (o : Opcode) : (nameOf o).all (· ≠ ' ') = true := by cases o <;> decide

@[simp] theorem mnemonicOf_nameOf (o : Opcode) : mnemonicOf (nameOf o) = some o := by cases o <;> decide

/-- The upper-case spelling of a mnemonic is read as well (R87). -/
theorem mnemonicOf_upper (o : Opcode) : mnemonicOf ((nameOf o).map Char.toUpper) = some o := by cases o <;> decide

/-- A digit that the writer writes is read back, and is neither a space nor a closing bracket. -/
theorem hexValue_hexDigit : ∀ v : Nat, v < 16 → hexValue (hexDigit v) = some v ∧ hexDigit v ≠ ' ' ∧ hexDigit v ≠ ']' := by decide

@[simp] theorem skipSpaces_nil : skipSpaces [] = [] := by simp [skipSpaces]

@[simp] theorem skipSpaces_space (cs : List Char) : skipSpaces (' ' :: cs) = skipSpaces cs := by simp [skipSpaces]

theorem skipSpaces_of_ne {c : Char} (h : c ≠ ' ') (cs : List Char) : skipSpaces (c :: cs) = c :: cs := by
  unfold skipSpaces
  split
  · rename_i heq
    simp at heq
    exact absurd heq.1 h
  · rfl

/-- A word without a space ends at the first space. -/
theorem splitWord_append (w cs : List Char) (h : w.all (· ≠ ' ') = true) : splitWord (w ++ ' ' :: cs) = (w, ' ' :: cs) := by
  induction w with
  | nil => simp [splitWord]
  | cons a w ih =>
    simp only [List.all_cons, Bool.and_eq_true, decide_eq_true_eq] at h
    simp only [List.cons_append, splitWord]
    rw [if_neg h.1, ih h.2]

end Sys2Proof.Assembler
end

