-- ==== Sys2Proof/Laws/Constants.lean ====
section
/-! SUPPORT. The derived lengths and offsets have the values that R2, R4 and R70 state. -/

namespace Sys2Proof

@[simp] theorem sof_eq : sof = [0x1A, 0xCF] := rfl

@[simp] theorem sofLen_eq : sofLen = 2 := rfl

@[simp] theorem hdrLen_eq : hdrLen = 4 := rfl

@[simp] theorem fieldOffset_packetType : fieldOffset .packetType = 2 := rfl

@[simp] theorem fieldOffset_sequenceHigh : fieldOffset .sequenceHigh = 3 := rfl

@[simp] theorem fieldOffset_sequenceLow : fieldOffset .sequenceLow = 4 := rfl

@[simp] theorem fieldOffset_payloadLength : fieldOffset .payloadLength = 5 := rfl

@[simp] theorem payloadOffset_eq : payloadOffset = 6 := rfl

@[simp] theorem checksumOffset_eq (n : Nat) : checksumOffset n = 6 + n := rfl

@[simp] theorem frameLength_eq (n : Nat) : frameLength n = 8 + n := by
  simp [frameLength, crcLen]
  omega

@[simp] theorem minFrame_eq : minFrame = 8 := rfl

@[simp] theorem maxPayload_eq : maxPayload = 255 := rfl

@[simp] theorem maxFrame_eq : maxFrame = 263 := rfl

/-- No header byte has two places, and every one has a place. -/
theorem headerLayout_nodup_complete : headerLayout.Nodup ∧ ∀ f, f ∈ headerLayout := by
  refine ⟨by decide, ?_⟩
  intro f
  cases f <;> decide

/-- The header as R120 writes it. -/
theorem frameHeader_eq (t : Byte) (sq : U16) (p : List Byte) :
    frameHeader t sq p = [t, hiByte sq, loByte sq, BitVec.ofNat 8 p.length] := rfl

@[simp] theorem BufCap.cap_unbounded : BufCap.unbounded.cap = none := rfl

/-- A bounded capacity is at least one maximum-length frame (R3). -/
@[simp] theorem BufCap.cap_bounded (beyond : Nat) : (BufCap.bounded beyond).cap = some (263 + beyond) := rfl

end Sys2Proof
end

