-- ==== Sys2Proof/Laws/Crc.lean ====
section
/-! SUPPORT. The CRC register is linear in register and byte and loses nothing in a shift; the fold's own equations. -/

namespace Sys2Proof

/-- The constants of R4 make the reflected register's: the polynomial of R100 and the initial value of R101. -/
theorem crcPolyReflected_eq : crcPolyReflected = 0x8408 := by decide

@[simp] theorem crcStart_eq : crcStart = 0x0000 := by decide

@[simp] theorem crcOut_eq (c : U16) : crcOut c = c := by simp [crcOut, crcRefOut, crcXorOut]

/-- `crc_step` as R100 writes it. -/
theorem crcStep_eq (c : U16) (b : Byte) : crcStep c b = crcShift^[8] (c ^^^ b.setWidth 16) := by simp [crcStep, crcIn, crcRefIn]

/-- `crc16k` as R101 writes it. -/
theorem crc16k_eq (bs : List Byte) : crc16k bs = bs.foldl crcStep 0x0000 := by simp [crc16k]

@[simp] theorem crc16k_nil : crc16k [] = 0 := by simp [crc16k]

theorem crc16k_append (bs cs : List Byte) : crc16k (bs ++ cs) = cs.foldl crcStep (crc16k bs) := by
  simp [crc16k]

theorem crc16k_snoc (bs : List Byte) (b : Byte) : crc16k (bs ++ [b]) = crcStep (crc16k bs) b := by
  simp [crc16k]

/-- The bits of one shift: every bit moves down, and bit 0 comes back through the polynomial's terms. -/
theorem crcShift_getLsbD (c : U16) (i : Nat) :
    (crcShift c).getLsbD i = (c.getLsbD (i + 1) ^^ (c.getLsbD 0 && crcPolyReflected.getLsbD i)) := by
  unfold crcShift
  split <;> simp_all [Nat.add_comm]

theorem crcShift_xor (c d : U16) : crcShift (c ^^^ d) = crcShift c ^^^ crcShift d := by
  apply BitVec.eq_of_getLsbD_eq
  intro i _
  simp only [crcShift_getLsbD, BitVec.getLsbD_xor]
  cases c.getLsbD 0 <;> cases d.getLsbD 0 <;> cases crcPolyReflected.getLsbD i <;>
    cases c.getLsbD (i + 1) <;> cases d.getLsbD (i + 1) <;> rfl

/-- A shift of a register that is not zero is not zero: bit 15 of the result is bit 0 of the register. -/
theorem crcShift_eq_zero {c : U16} (h : crcShift c = 0) : c = 0 := by
  have h0 : c.getLsbD 0 = false := by
    have := crcShift_getLsbD c 15
    rw [h] at this
    simpa [crcPolyReflected_eq] using this.symm
  apply BitVec.eq_of_getLsbD_eq
  intro i hi
  cases i with
  | zero => simpa using h0
  | succ i =>
    have := crcShift_getLsbD c i
    rw [h, h0] at this
    simpa using this.symm

theorem crcShift_injective : Function.Injective crcShift := by
  intro c d h
  have : crcShift (c ^^^ d) = 0 := by simp [crcShift_xor, h]
  simpa using crcShift_eq_zero this

theorem crcShift_iterate_xor (n : Nat) (c d : U16) : crcShift^[n] (c ^^^ d) = crcShift^[n] c ^^^ crcShift^[n] d := by
  induction n generalizing c d with
  | zero => rfl
  | succ n ih => simp [Function.iterate_succ, crcShift_xor, ih]

/-- For one byte, different registers stay different. -/
theorem crcStep_injective_left (b : Byte) : Function.Injective fun c => crcStep c b := by
  intro c d h
  simp only [crcStep_eq] at h
  simpa using crcShift_injective.iterate 8 h

/-- From one register, different bytes give different registers. -/
theorem crcStep_injective_right (c : U16) : Function.Injective (crcStep c) := by
  intro a b h
  simp only [crcStep_eq] at h
  have h1 : a.setWidth 16 = b.setWidth 16 := by simpa using crcShift_injective.iterate 8 h
  have h2 := congrArg (BitVec.setWidth 8) h1
  simpa using h2

/-- Registers that differ still differ after the same bytes. -/
theorem foldl_crcStep_injective (bs : List Byte) : Function.Injective fun c => bs.foldl crcStep c := by
  induction bs with
  | nil => exact fun _ _ h => h
  | cons b bs ih => exact fun c d h => crcStep_injective_left b (ih h)

end Sys2Proof
end

