-- ==== Sys2Proof/Laws/Operands.lean ====
section
/-! SUPPORT. Big-endian assembly and its inverse, slices and counted bytes. -/

namespace Sys2Proof

theorem be16_toNat (hi lo : Byte) : (be16 hi lo).toNat = hi.toNat * 256 + lo.toNat := by
  have := hi.isLt
  have := lo.isLt
  simp [be16]
  omega

theorem hiByte_toNat (v : U16) : (hiByte v).toNat = v.toNat / 256 := by
  have := v.isLt
  simp [hiByte, BitVec.extractLsb'_toNat, Nat.shiftRight_eq_div_pow]
  omega

theorem loByte_toNat (v : U16) : (loByte v).toNat = v.toNat % 256 := by
  simp [loByte, BitVec.extractLsb'_toNat]

@[simp] theorem be16_hiByte_loByte (v : U16) : be16 (hiByte v) (loByte v) = v := by
  apply BitVec.eq_of_toNat_eq
  rw [be16_toNat, hiByte_toNat, loByte_toNat]
  omega

@[simp] theorem hiByte_be16 (hi lo : Byte) : hiByte (be16 hi lo) = hi := by
  apply BitVec.eq_of_toNat_eq
  have := lo.isLt
  rw [hiByte_toNat, be16_toNat]
  omega

@[simp] theorem loByte_be16 (hi lo : Byte) : loByte (be16 hi lo) = lo := by
  apply BitVec.eq_of_toNat_eq
  have := lo.isLt
  rw [loByte_toNat, be16_toNat]
  omega

theorem bytesBe16_injective (v w : U16) (h : bytesBe16 v = bytesBe16 w) : v = w := by
  simp only [bytesBe16, List.cons.injEq, and_true] at h
  rw [← be16_hiByte_loByte v, ← be16_hiByte_loByte w, h.1, h.2]

@[simp] theorem bytesBe16_length (v : U16) : (bytesBe16 v).length = 2 := rfl

theorem splitBytes_eq_some {n : Nat} {bs a rest : List Byte} :
    splitBytes n bs = some (a, rest) ↔ a.length = n ∧ bs = a ++ rest := by
  unfold splitBytes
  constructor
  · intro h
    split at h
    · simp only [Option.some.injEq, Prod.mk.injEq] at h
      obtain ⟨rfl, rfl⟩ := h
      simp; omega
    · cases h
  · rintro ⟨rfl, rfl⟩
    simp

theorem splitBytes_eq_none {n : Nat} {bs : List Byte} : splitBytes n bs = none ↔ bs.length < n := by
  unfold splitBytes
  split <;> simp <;> omega

@[simp] theorem splitBytes_append (a rest : List Byte) : splitBytes a.length (a ++ rest) = some (a, rest) :=
  splitBytes_eq_some.2 ⟨rfl, rfl⟩

theorem slice_length (bs : List Byte) (a b : Nat) (h : b ≤ bs.length) : (slice bs a b).length = b - a := by
  simp [slice]; omega

theorem byteAt_append_left (as bs : List Byte) (k : Nat) (h : k < as.length) : byteAt (as ++ bs) k = byteAt as k := by
  simp [byteAt, List.getD, List.getElem?_append_left h]

theorem byteAt_append_right (as bs : List Byte) (k : Nat) : byteAt (as ++ bs) (as.length + k) = byteAt bs k := by
  simp [byteAt, List.getD, List.getElem?_append_right]

theorem slice_append_right (as bs : List Byte) (a b : Nat) :
    slice (as ++ bs) (as.length + a) (as.length + b) = slice bs a b := by
  unfold slice
  rw [List.drop_length_add_append, show as.length + b - (as.length + a) = b - a by omega]

theorem slice_append_left (as bs : List Byte) (a b : Nat) (h : b ≤ as.length) : slice (as ++ bs) a b = slice as a b := by
  unfold slice
  by_cases hab : a ≤ b
  · rw [List.drop_append_of_le_length (by omega), List.take_append_of_le_length (by simp; omega)]
  · simp [show b - a = 0 by omega]

end Sys2Proof
end

