-- ==== Sys2Proof/Laws/Decode.lean ====
section
/-! SUPPORT. The opcode map is unambiguous, its rows and the command bytes agree; what a counted byte list decodes to. -/

namespace Sys2Proof

/-- No two rows of the opcode map share an opcode byte or a command. -/
theorem opcodeMap_pairwise : opcodeMap.Pairwise fun a b => a.1 ≠ b.1 ∧ a.2 ≠ b.2 := by decide

@[simp] theorem opcodeOf_byte (o : Opcode) : opcodeOf o.byte = some o := by cases o <;> decide

theorem opcodeOf_eq_some {op : Byte} {o : Opcode} : opcodeOf op = some o ↔ op = o.byte := by
  constructor
  · intro h
    revert op o
    decide
  · rintro rfl
    exact opcodeOf_byte o

theorem opcodeOf_eq_none {op : Byte} : opcodeOf op = none ↔ ∀ o : Opcode, op ≠ o.byte := by
  rw [← not_iff_not, ← ne_eq, Option.ne_none_iff_exists']
  simp [opcodeOf_eq_some]

theorem decode_opcode (o : Opcode) (bs : List Byte) :
    decode (o.byte :: bs) = match decodeOperands o bs with
      | none => .incomplete
      | some r => .command r.1 r.2 := by
  simp only [decode, opcodeOf_byte]
  all_goals rfl

theorem commandLength_opcode (o : Opcode) (bs : List Byte) : commandLength (o.byte :: bs) = lengthOf o bs := by
  simp only [commandLength, opcodeOf_byte]

theorem commandLength_unassigned {op : Byte} (h : opcodeOf op = none) (bs : List Byte) : commandLength (op :: bs) = some 1 := by
  simp only [commandLength, h]

theorem decode_unassigned {op : Byte} (h : opcodeOf op = none) (bs : List Byte) : decode (op :: bs) = .illegal op bs := by
  simp only [decode, h]

@[simp] theorem bytesBe16_append (v : U16) (bs : List Byte) : bytesBe16 v ++ bs = hiByte v :: loByte v :: bs := rfl

@[simp] theorem encodeCounted_eq (bs : List Byte) :
    encodeCounted bs = hiByte (BitVec.ofNat 16 bs.length) :: loByte (BitVec.ofNat 16 bs.length) :: bs := rfl

theorem countedBytes_cons (nH nL : Byte) (bs : List Byte) :
    countedBytes (nH :: nL :: bs) = splitBytes (be16 nH nL).toNat bs := rfl

theorem fitsCount_iff (bs : List Byte) : fitsCount bs = true ↔ bs.length ≤ 65535 := by simp [fitsCount]

theorem count_toNat {bs : List Byte} (h : fitsCount bs = true) : (BitVec.ofNat 16 bs.length).toNat = bs.length := by
  rw [fitsCount_iff] at h
  simp
  omega

/-- A counted list decodes to itself, whatever follows. -/
theorem countedBytes_encodeCounted {bs : List Byte} (h : fitsCount bs = true) (rest : List Byte) :
    countedBytes (encodeCounted bs ++ rest) = some (bs, rest) := by
  simp [countedBytes_cons, count_toNat h]

/-- What decodes as a counted list is one, and is within its count. -/
theorem countedBytes_eq_some {bs d rest : List Byte} (h : countedBytes bs = some (d, rest)) :
    fitsCount d = true ∧ bs = encodeCounted d ++ rest := by
  match bs, h with
  | nH :: nL :: bs, h =>
    rw [countedBytes_cons, splitBytes_eq_some] at h
    obtain ⟨hl, rfl⟩ := h
    have := (be16 nH nL).isLt
    refine ⟨by rw [fitsCount_iff]; omega, ?_⟩
    rw [encodeCounted_eq, hl, BitVec.ofNat_toNat]
    simp

end Sys2Proof
end

