-- ==== Sys2Proof/Laws/State.lean ====
section
/-! SUPPORT. What each named operation leaves in each field of the state, so that no later proof unfolds a record update. -/

namespace Sys2Proof.Machine

@[simp] theorem writeCrcAcc_crcAcc (v : U16) (s : State) : (writeCrcAcc v s).crcAcc = v := rfl
@[simp] theorem writeCrcAcc_txSeq (v : U16) (s : State) : (writeCrcAcc v s).txSeq = s.txSeq := rfl
@[simp] theorem writeCrcAcc_rxbuf (v : U16) (s : State) : (writeCrcAcc v s).rxbuf = s.rxbuf := rfl
@[simp] theorem writeCrcAcc_lastSeqValid (v : U16) (s : State) : (writeCrcAcc v s).lastSeqValid = s.lastSeqValid := rfl
@[simp] theorem writeCrcAcc_lastSeq (v : U16) (s : State) : (writeCrcAcc v s).lastSeq = s.lastSeq := rfl
@[simp] theorem writeCrcAcc_txout (v : U16) (s : State) : (writeCrcAcc v s).txout = s.txout := rfl
@[simp] theorem writeCrcAcc_responses (v : U16) (s : State) : (writeCrcAcc v s).responses = s.responses := rfl
@[simp] theorem writeCrcAcc_port (v : U16) (s : State) : (writeCrcAcc v s).port = s.port := rfl
@[simp] theorem writeCrcAcc_inputs (v : U16) (s : State) : (writeCrcAcc v s).inputs = s.inputs := rfl

@[simp] theorem writeTxSeq_crcAcc (v : U16) (s : State) : (writeTxSeq v s).crcAcc = s.crcAcc := rfl
@[simp] theorem writeTxSeq_txSeq (v : U16) (s : State) : (writeTxSeq v s).txSeq = v := rfl
@[simp] theorem writeTxSeq_rxbuf (v : U16) (s : State) : (writeTxSeq v s).rxbuf = s.rxbuf := rfl
@[simp] theorem writeTxSeq_lastSeqValid (v : U16) (s : State) : (writeTxSeq v s).lastSeqValid = s.lastSeqValid := rfl
@[simp] theorem writeTxSeq_lastSeq (v : U16) (s : State) : (writeTxSeq v s).lastSeq = s.lastSeq := rfl
@[simp] theorem writeTxSeq_txout (v : U16) (s : State) : (writeTxSeq v s).txout = s.txout := rfl
@[simp] theorem writeTxSeq_responses (v : U16) (s : State) : (writeTxSeq v s).responses = s.responses := rfl
@[simp] theorem writeTxSeq_port (v : U16) (s : State) : (writeTxSeq v s).port = s.port := rfl
@[simp] theorem writeTxSeq_inputs (v : U16) (s : State) : (writeTxSeq v s).inputs = s.inputs := rfl

@[simp] theorem writeRxbuf_crcAcc (bs : List Byte) (s : State) : (writeRxbuf bs s).crcAcc = s.crcAcc := rfl
@[simp] theorem writeRxbuf_txSeq (bs : List Byte) (s : State) : (writeRxbuf bs s).txSeq = s.txSeq := rfl
@[simp] theorem writeRxbuf_rxbuf (bs : List Byte) (s : State) : (writeRxbuf bs s).rxbuf = bs := rfl
@[simp] theorem writeRxbuf_lastSeqValid (bs : List Byte) (s : State) : (writeRxbuf bs s).lastSeqValid = s.lastSeqValid := rfl
@[simp] theorem writeRxbuf_lastSeq (bs : List Byte) (s : State) : (writeRxbuf bs s).lastSeq = s.lastSeq := rfl
@[simp] theorem writeRxbuf_txout (bs : List Byte) (s : State) : (writeRxbuf bs s).txout = s.txout := rfl
@[simp] theorem writeRxbuf_responses (bs : List Byte) (s : State) : (writeRxbuf bs s).responses = s.responses := rfl
@[simp] theorem writeRxbuf_port (bs : List Byte) (s : State) : (writeRxbuf bs s).port = s.port := rfl
@[simp] theorem writeRxbuf_inputs (bs : List Byte) (s : State) : (writeRxbuf bs s).inputs = s.inputs := rfl

@[simp] theorem writeTracker_crcAcc (v : U16) (s : State) : (writeTracker v s).crcAcc = s.crcAcc := rfl
@[simp] theorem writeTracker_txSeq (v : U16) (s : State) : (writeTracker v s).txSeq = s.txSeq := rfl
@[simp] theorem writeTracker_rxbuf (v : U16) (s : State) : (writeTracker v s).rxbuf = s.rxbuf := rfl
@[simp] theorem writeTracker_lastSeqValid (v : U16) (s : State) : (writeTracker v s).lastSeqValid = true := rfl
@[simp] theorem writeTracker_lastSeq (v : U16) (s : State) : (writeTracker v s).lastSeq = v := rfl
@[simp] theorem writeTracker_txout (v : U16) (s : State) : (writeTracker v s).txout = s.txout := rfl
@[simp] theorem writeTracker_responses (v : U16) (s : State) : (writeTracker v s).responses = s.responses := rfl
@[simp] theorem writeTracker_port (v : U16) (s : State) : (writeTracker v s).port = s.port := rfl
@[simp] theorem writeTracker_inputs (v : U16) (s : State) : (writeTracker v s).inputs = s.inputs := rfl

@[simp] theorem emit_crcAcc (bs : List Byte) (s : State) : (emit bs s).crcAcc = s.crcAcc := rfl
@[simp] theorem emit_txSeq (bs : List Byte) (s : State) : (emit bs s).txSeq = s.txSeq := rfl
@[simp] theorem emit_rxbuf (bs : List Byte) (s : State) : (emit bs s).rxbuf = s.rxbuf := rfl
@[simp] theorem emit_lastSeqValid (bs : List Byte) (s : State) : (emit bs s).lastSeqValid = s.lastSeqValid := rfl
@[simp] theorem emit_lastSeq (bs : List Byte) (s : State) : (emit bs s).lastSeq = s.lastSeq := rfl
@[simp] theorem emit_txout (bs : List Byte) (s : State) : (emit bs s).txout = s.txout ++ bs := rfl
@[simp] theorem emit_responses (bs : List Byte) (s : State) : (emit bs s).responses = s.responses := rfl
@[simp] theorem emit_port (bs : List Byte) (s : State) : (emit bs s).port = s.port := rfl
@[simp] theorem emit_inputs (bs : List Byte) (s : State) : (emit bs s).inputs = s.inputs := rfl

@[simp] theorem respond_crcAcc (r : Response) (s : State) : (respond r s).crcAcc = s.crcAcc := rfl
@[simp] theorem respond_txSeq (r : Response) (s : State) : (respond r s).txSeq = s.txSeq := rfl
@[simp] theorem respond_rxbuf (r : Response) (s : State) : (respond r s).rxbuf = s.rxbuf := rfl
@[simp] theorem respond_lastSeqValid (r : Response) (s : State) : (respond r s).lastSeqValid = s.lastSeqValid := rfl
@[simp] theorem respond_lastSeq (r : Response) (s : State) : (respond r s).lastSeq = s.lastSeq := rfl
@[simp] theorem respond_txout (r : Response) (s : State) : (respond r s).txout = s.txout := rfl
@[simp] theorem respond_responses (r : Response) (s : State) : (respond r s).responses = s.responses ++ [r] := rfl
@[simp] theorem respond_port (r : Response) (s : State) : (respond r s).port = s.port := rfl
@[simp] theorem respond_inputs (r : Response) (s : State) : (respond r s).inputs = s.inputs := rfl

@[simp] theorem raise_crcAcc (r : Response) (s : State) : (raise r s).crcAcc = s.crcAcc := rfl
@[simp] theorem raise_txSeq (r : Response) (s : State) : (raise r s).txSeq = s.txSeq := rfl
@[simp] theorem raise_rxbuf (r : Response) (s : State) : (raise r s).rxbuf = s.rxbuf := rfl
@[simp] theorem raise_lastSeqValid (r : Response) (s : State) : (raise r s).lastSeqValid = s.lastSeqValid := rfl
@[simp] theorem raise_lastSeq (r : Response) (s : State) : (raise r s).lastSeq = s.lastSeq := rfl
@[simp] theorem raise_txout (r : Response) (s : State) : (raise r s).txout = s.txout := rfl
@[simp] theorem raise_responses (r : Response) (s : State) : (raise r s).responses = s.responses ++ [r] := rfl
@[simp] theorem raise_port (r : Response) (s : State) : (raise r s).port = s.port := rfl
@[simp] theorem raise_inputs (r : Response) (s : State) : (raise r s).inputs = s.inputs := rfl

@[simp] theorem setPort_crcAcc (rest : List Byte) (s : State) : (setPort rest s).crcAcc = s.crcAcc := rfl
@[simp] theorem setPort_txSeq (rest : List Byte) (s : State) : (setPort rest s).txSeq = s.txSeq := rfl
@[simp] theorem setPort_rxbuf (rest : List Byte) (s : State) : (setPort rest s).rxbuf = s.rxbuf := rfl
@[simp] theorem setPort_lastSeqValid (rest : List Byte) (s : State) : (setPort rest s).lastSeqValid = s.lastSeqValid := rfl
@[simp] theorem setPort_lastSeq (rest : List Byte) (s : State) : (setPort rest s).lastSeq = s.lastSeq := rfl
@[simp] theorem setPort_txout (rest : List Byte) (s : State) : (setPort rest s).txout = s.txout := rfl
@[simp] theorem setPort_responses (rest : List Byte) (s : State) : (setPort rest s).responses = s.responses := rfl
@[simp] theorem setPort_port (rest : List Byte) (s : State) : (setPort rest s).port = rest := rfl
@[simp] theorem setPort_inputs (rest : List Byte) (s : State) : (setPort rest s).inputs = s.inputs := rfl

@[simp] theorem setInputs_crcAcc (rest : List Input) (s : State) : (setInputs rest s).crcAcc = s.crcAcc := rfl
@[simp] theorem setInputs_txSeq (rest : List Input) (s : State) : (setInputs rest s).txSeq = s.txSeq := rfl
@[simp] theorem setInputs_rxbuf (rest : List Input) (s : State) : (setInputs rest s).rxbuf = s.rxbuf := rfl
@[simp] theorem setInputs_lastSeqValid (rest : List Input) (s : State) : (setInputs rest s).lastSeqValid = s.lastSeqValid := rfl
@[simp] theorem setInputs_lastSeq (rest : List Input) (s : State) : (setInputs rest s).lastSeq = s.lastSeq := rfl
@[simp] theorem setInputs_txout (rest : List Input) (s : State) : (setInputs rest s).txout = s.txout := rfl
@[simp] theorem setInputs_responses (rest : List Input) (s : State) : (setInputs rest s).responses = s.responses := rfl
@[simp] theorem setInputs_port (rest : List Input) (s : State) : (setInputs rest s).port = s.port := rfl
@[simp] theorem setInputs_inputs (rest : List Input) (s : State) : (setInputs rest s).inputs = rest := rfl

/-! The port's and the tracker's operations are those operations composed. -/

@[simp] theorem illegalCommand_eq (op : Byte) (rest : List Byte) (s : State) :
    illegalCommand op rest s = raise (.illegalCmd op) (setPort rest s) := rfl

@[simp] theorem arrive_eq (b : Byte) (rest : List Input) (s : State) :
    arrive b rest s = setInputs rest (setPort (s.port ++ [b]) s) := rfl

@[simp] theorem applyReset_eq (rest : List Input) : applyReset rest = setInputs rest State.reset := rfl

@[simp] theorem track_gap (sq : U16) (s : State) : (track sq s).1 = gapReport s sq := rfl

@[simp] theorem track_state (sq : U16) (s : State) : (track sq s).2 = writeTracker sq s := rfl

@[simp] theorem gapReport_writeRxbuf (bs : List Byte) (s : State) (sq : U16) :
    gapReport (writeRxbuf bs s) sq = gapReport s sq := rfl

theorem gapReport_of_not_valid (s : State) (sq : U16) (h : s.lastSeqValid = false) : gapReport s sq = none := by
  simp [gapReport, h]

theorem gapReport_of_valid (s : State) (sq : U16) (h : s.lastSeqValid = true) :
    gapReport s sq = some (gapOf s.lastSeq sq) := by
  simp [gapReport, h]

/-! `andThen` on each outcome. -/

@[simp] theorem andThen_next (s : State) (k : State → Host.Outcome State Fault Refusal) : andThen (.next s) k = k s := rfl

@[simp] theorem andThen_fault (r : Fault) (k : State → Host.Outcome State Fault Refusal) : andThen (.fault r) k = .fault r := rfl

@[simp] theorem andThen_refused (r : Refusal) (k : State → Host.Outcome State Fault Refusal) :
    andThen (.refused r) k = .refused r := rfl

end Sys2Proof.Machine
end

