-- ==== Sys2Proof/Laws/StreamDecoder.lean ====
section
/-! SUPPORT. How the stream decoder reads a buffer: `findSof` step by step, a decode attempt by its consumed count, a frame's length. -/

namespace Sys2Proof

theorem findSof_cons_cons (a b : Byte) (bs : List Byte) :
    findSof (a :: b :: bs) = if a = sof0 ∧ b = sof1 then some 0 else (findSof (b :: bs)).map (· + 1) := by
  rw [findSof]

theorem encodeFrame_of_le {t : Byte} {sq : U16} {p : List Byte} (h : p.length ≤ 255) :
    encodeFrame t sq p =
      some ([sof0, sof1] ++ frameHeader t sq p ++ p ++ bytesBe16 (crc16k (frameHeader t sq p ++ p))) := by
  simp [encodeFrame, sof0, sof1]
  omega

theorem encodeFrame_of_lt {t : Byte} {sq : U16} {p : List Byte} (h : 255 < p.length) : encodeFrame t sq p = none := by
  simp [encodeFrame, h]

theorem encodeFrame_length {t : Byte} {sq : U16} {p f : List Byte} (h : encodeFrame t sq p = some f) :
    f.length = 8 + p.length := by
  unfold encodeFrame at h
  split at h
  · cases h
  · simp only [Option.some.injEq] at h
    simp [← h, frameHeader_eq]
    omega

/-- An occurrence starts before the last byte. -/
theorem findSof_lt {buf : List Byte} {i : Nat} (h : findSof buf = some i) : i + 1 < buf.length := by
  fun_induction findSof buf generalizing i with
  | case1 => cases h
  | case2 => cases h
  | case3 =>
    cases h
    simp
  | case4 _ _ _ _ ih =>
    simp only [Option.map_eq_some_iff] at h
    obtain ⟨j, hj, rfl⟩ := h
    have := ih hj
    simp at this ⊢
    omega

/-- Everything a decode attempt can answer, with the conditions under which it does (R141). -/
theorem tryDecode_cases (buf : List Byte) :
    (findSof buf = none ∧ tryDecode buf = .needMoreNoSof) ∨
    ∃ i, findSof buf = some i ∧
      ((buf.length - i < 8 ∨ buf.length - i < 8 + (byteAt buf (i + 5)).toNat) ∧ tryDecode buf = .needMoreIncomplete i ∨
       8 + (byteAt buf (i + 5)).toNat ≤ buf.length - i ∧
        ((crc16k (slice buf (i + 2) (i + 6 + (byteAt buf (i + 5)).toNat)) =
            be16 (byteAt buf (i + 6 + (byteAt buf (i + 5)).toNat)) (byteAt buf (i + 7 + (byteAt buf (i + 5)).toNat)) ∧
          tryDecode buf = .packet (i + (8 + (byteAt buf (i + 5)).toNat))
            ⟨byteAt buf (i + 2), be16 (byteAt buf (i + 3)) (byteAt buf (i + 4)),
              slice buf (i + 6) (i + 6 + (byteAt buf (i + 5)).toNat)⟩) ∨
         (crc16k (slice buf (i + 2) (i + 6 + (byteAt buf (i + 5)).toNat)) ≠
            be16 (byteAt buf (i + 6 + (byteAt buf (i + 5)).toNat)) (byteAt buf (i + 7 + (byteAt buf (i + 5)).toNat)) ∧
          tryDecode buf = .crcMismatch (i + (8 + (byteAt buf (i + 5)).toNat))))) := by
  cases hf : findSof buf with
  | none => simp [tryDecode, hf]
  | some i =>
    have first (n : Nat) : i + (6 + n) = i + 6 + n := by omega
    have second (n : Nat) : i + 6 + n + 1 = i + 7 + n := by omega
    right
    refine ⟨i, rfl, ?_⟩
    simp only [tryDecode, hf, minFrame_eq, frameLength_eq, checksumOffset_eq, payloadOffset_eq, sofLen_eq, fieldOffset_packetType,
      fieldOffset_sequenceHigh, fieldOffset_sequenceLow, fieldOffset_payloadLength, first, second]
    by_cases h8 : buf.length - i < 8
    · left
      simp [h8]
    · by_cases hn : buf.length - i < 8 + (byteAt buf (i + 5)).toNat
      · left
        simp [h8, hn]
      · right
        refine ⟨by omega, ?_⟩
        by_cases hc : crc16k (slice buf (i + 2) (i + 6 + (byteAt buf (i + 5)).toNat)) =
            be16 (byteAt buf (i + 6 + (byteAt buf (i + 5)).toNat)) (byteAt buf (i + 7 + (byteAt buf (i + 5)).toNat))
        · left
          simp [h8, hn, hc]
        · right
          simp [h8, hn, hc]

end Sys2Proof
end

