-- ==== Sys2Proof/Laws/Exec.lean ====
section
/-! SUPPORT. Said once: what the shared operations of the commands, `exec`, a run of commands and `step` can do. -/

namespace Sys2Proof.Machine

/-- The instruction set of the machine is its instruction set at the configured capacity (R3). -/
theorem exec_eq_execAt (i : Instr) (s : State) : exec i s = execAt Config.bufCap.cap i s := by cases i <;> rfl

theorem runCommands_eq_runAt (is : List Instr) (s : State) : runCommands is s = runAt Config.bufCap.cap is s := by
  have : exec = execAt Config.bufCap.cap := funext fun i => funext fun s => exec_eq_execAt i s
  rw [runCommands, runAt, this]

@[simp] theorem runWith_nil (f : Instr → State → Host.Outcome State Fault Refusal) (s : State) : runWith f [] s = .next s := rfl

@[simp] theorem runWith_cons (f : Instr → State → Host.Outcome State Fault Refusal) (i : Instr) (is : List Instr) (s : State) :
    runWith f (i :: is) s = andThen (f i s) (runWith f is) := rfl

theorem runWith_append (f : Instr → State → Host.Outcome State Fault Refusal) (is js : List Instr) (s : State) :
    runWith f (is ++ js) s = andThen (runWith f is s) (runWith f js) := by
  induction is generalizing s with
  | nil => rfl
  | cons i is ih =>
    simp only [List.cons_append, runWith_cons]
    cases f i s <;> simp [ih]

/-- The state a command leaves at a capacity: the command part of `execAt`, as a function. -/
theorem execAt_next (cap : Option Nat) (i : Instr) (s : State) : ∃ t, execAt cap i s = .next t := by
  cases i with
  | frmEnc t sq p => simp only [execAt, exec, execFrmEnc]; split <;> exact ⟨_, rfl⟩
  | frmSend t p => simp only [execAt, exec, execFrmSend]; split <;> exact ⟨_, rfl⟩
  | rxDec => simp only [execAt, exec, execRxDec]; split <;> exact ⟨_, rfl⟩
  | crcClr => exact ⟨_, rfl⟩
  | crcUpd => exact ⟨_, rfl⟩
  | crcRd => exact ⟨_, rfl⟩
  | seqRd => exact ⟨_, rfl⟩
  | seqAdv => exact ⟨_, rfl⟩
  | rxPush => exact ⟨_, rfl⟩
  | rxPushn => exact ⟨_, rfl⟩
  | rxLvl => exact ⟨_, rfl⟩
  | rxseqRd => exact ⟨_, rfl⟩

/-- Everything a step can do (R80, R83, R85, R230): run the arrived command, answer an unassigned opcode, take a byte, or reset. -/
theorem step_cases {s t : State} (h : step s = .next t) :
    (∃ i rest, decode s.port = .command i rest ∧ exec i (setPort rest s) = .next t) ∨
    (∃ op rest, decode s.port = .illegal op rest ∧ t = illegalCommand op rest s) ∨
    (∃ b later, decode s.port = .incomplete ∧ s.inputs = .byte b :: later ∧ t = arrive b later s) ∨
    (∃ later, decode s.port = .incomplete ∧ s.inputs = .reset :: later ∧ t = applyReset later) := by
  unfold step at h
  split at h
  case h_1 i rest hd => exact .inl ⟨i, rest, hd, h⟩
  case h_2 op rest hd =>
    cases h
    exact .inr (.inl ⟨op, rest, hd, rfl⟩)
  case h_3 hd =>
    split at h
    case h_1 b later hi =>
      cases h
      exact .inr (.inr (.inl ⟨b, later, hd, hi, rfl⟩))
    case h_2 later hi =>
      cases h
      exact .inr (.inr (.inr ⟨later, hd, hi, rfl⟩))
    case h_3 => split at h <;> cases h

/-- What FRM.ENC leaves, by its payload's length. -/
theorem execFrmEnc_cases (t : Byte) (sq : U16) (p : List Byte) (s : State) :
    (∃ f, encodeFrame t sq p = some f ∧ p.length ≤ 255 ∧ execFrmEnc t sq p s = .next (respond (.frame f) (emit f s))) ∨
    255 < p.length ∧ execFrmEnc t sq p s = .next (raise (.payloadTooLarge p.length) s) := by
  by_cases h : p.length ≤ 255
  · exact .inl ⟨_, encodeFrame_of_le h, h, by simp only [execFrmEnc, encodeFrame_of_le h]⟩
  · exact .inr ⟨by omega, by simp only [execFrmEnc, encodeFrame_of_lt (Nat.lt_of_not_le h)]⟩

/-- What FRM.SEND leaves, by its payload's length. -/
theorem execFrmSend_cases (t : Byte) (p : List Byte) (s : State) :
    (∃ f, encodeFrame t s.txSeq p = some f ∧ p.length ≤ 255 ∧
      execFrmSend t p s = .next (writeTxSeq (nextSeq s.txSeq) (respond (.sent s.txSeq f) (emit f s)))) ∨
    255 < p.length ∧ execFrmSend t p s = .next (raise (.payloadTooLarge p.length) s) := by
  by_cases h : p.length ≤ 255
  · exact .inl ⟨_, encodeFrame_of_le h, h, by simp only [execFrmSend, encodeFrame_of_le h]⟩
  · exact .inr ⟨by omega, by simp only [execFrmSend, encodeFrame_of_lt (Nat.lt_of_not_le h)]⟩

/-- What RX.DEC leaves, by the result of its attempt. -/
theorem execRxDec_cases (s : State) :
    (tryDecode s.rxbuf = .needMoreNoSof ∧ execRxDec s = .next (respond (.needMoreNoSof 0) s)) ∨
    (∃ k, tryDecode s.rxbuf = .needMoreIncomplete k ∧
      execRxDec s = .next (respond (.needMoreIncomplete k) (writeRxbuf (s.rxbuf.drop k) s))) ∨
    (∃ k, tryDecode s.rxbuf = .crcMismatch k ∧
      execRxDec s = .next (respond (.crcMismatch k) (writeRxbuf (s.rxbuf.drop k) s))) ∨
    ∃ k pkt, tryDecode s.rxbuf = .packet k pkt ∧
      execRxDec s = .next (respond (.packet k pkt.ptype pkt.sequence pkt.payload (gapReport s pkt.sequence))
        (writeTracker pkt.sequence (writeRxbuf (s.rxbuf.drop k) s))) := by
  cases h : tryDecode s.rxbuf with
  | needMoreNoSof =>
    refine .inl ⟨rfl, ?_⟩
    simp only [execRxDec, h, Attempt.consumed, List.drop_zero]
    rfl
  | needMoreIncomplete k => exact .inr (.inl ⟨k, rfl, by simp only [execRxDec, h, Attempt.consumed]⟩)
  | crcMismatch k => exact .inr (.inr (.inl ⟨k, rfl, by simp only [execRxDec, h, Attempt.consumed]⟩))
  | packet k pkt =>
    refine .inr (.inr (.inr ⟨k, pkt, rfl, ?_⟩))
    simp only [execRxDec, h, Attempt.consumed, track_gap, track_state, gapReport_writeRxbuf]

end Sys2Proof.Machine
end

