-- ==== Sys2Proof/Laws/Issuer.lean ====
section
/-! SUPPORT. What the issuers' operations can do: taking the head of a queue, and the chunks of rx.write. -/

namespace Sys2Proof.Machine

theorem takeFrom_eq_some {k : Nat} {queues : List (List Instr)} {i : Instr} {is : List Instr} (h : queues[k]? = some (i :: is)) :
    takeFrom k queues = some (i, queues.set k is) := by
  simp [takeFrom, h]

theorem takeFrom_eq_none {k : Nat} {queues : List (List Instr)} (h : ∀ i is, queues[k]? ≠ some (i :: is)) :
    takeFrom k queues = none := by
  unfold takeFrom
  split
  · exact absurd ‹_› (h _ _)
  · rfl
  · rfl

/-- With enough fuel the chunks are the whole list, each within its size. -/
theorem chunks_flatten {size fuel : Nat} {d : List Byte} (hs : 0 < size) (hf : d.length ≤ fuel) :
    (chunks size fuel d).flatten = d ∧ ∀ c ∈ chunks size fuel d, c.length ≤ size := by
  induction fuel generalizing d with
  | zero =>
    obtain rfl : d = [] := List.eq_nil_of_length_eq_zero (by omega)
    simp [chunks]
  | succ f ih =>
    cases d with
    | nil => simp [chunks]
    | cons b bs =>
      have rest := @ih ((b :: bs).drop size) (by simp at hf ⊢; omega)
      simp only [chunks, List.flatten_cons, rest.1, List.take_append_drop, true_and]
      intro c hc
      rcases List.mem_cons.1 hc with rfl | hc
      · rw [List.length_take]
        omega
      · exact rest.2 c hc

end Sys2Proof.Machine
end

