-- ==== Sys2Proof/Laws/PerInstr.lean ====
section
/-! SUPPORT. Per instruction: the length R85 reads off a command's first bytes is the length of its encoding, whatever bytes follow. -/

namespace Sys2Proof.Laws.EncodedLength

/-- R85 for one command. -/
def Statement (i : Instr) : Prop :=
  i.wellFormed = true → ∀ rest : List Byte, commandLength (encode i ++ rest) = some (encode i).length

theorem crcClr : Statement .crcClr := fun _ _ => rfl

theorem crcUpd (b : Byte) : Statement (.crcUpd b) := fun _ _ => rfl

theorem crcRd : Statement .crcRd := fun _ _ => rfl

theorem frmEnc (t : Byte) (sq : U16) (p : List Byte) : Statement (.frmEnc t sq p) := fun h rest => by
  simp [encode, commandLength_opcode, lengthOf, count_toNat h]
  omega

theorem frmSend (t : Byte) (p : List Byte) : Statement (.frmSend t p) := fun h rest => by
  simp [encode, commandLength_opcode, lengthOf, count_toNat h]
  omega

theorem seqRd : Statement .seqRd := fun _ _ => rfl

theorem seqAdv : Statement .seqAdv := fun _ _ => rfl

theorem rxPush (b : Byte) : Statement (.rxPush b) := fun _ _ => rfl

theorem rxPushn (d : List Byte) : Statement (.rxPushn d) := fun h rest => by
  simp [encode, commandLength_opcode, lengthOf, count_toNat h]
  omega

theorem rxDec : Statement .rxDec := fun _ _ => rfl

theorem rxLvl : Statement .rxLvl := fun _ _ => rfl

theorem rxseqRd : Statement .rxseqRd := fun _ _ => rfl

end Sys2Proof.Laws.EncodedLength
end

