-- ==== Sys2Proof/Laws/RxBuffer.lean ====
section
/-! SUPPORT. Pushing bytes: what one push can do, pushes in parts, and the bound a capacity keeps. -/

namespace Sys2Proof

/-- Everything a push can do (R148, R149). -/
theorem pushByte_cases (cap : Option Nat) (buf : List Byte) (b : Byte) :
    (cap = some buf.length ∧ pushByte cap buf b = (buf.drop 1 ++ [b], 1)) ∨
    (cap ≠ some buf.length ∧ pushByte cap buf b = (buf ++ [b], 0)) := by
  unfold pushByte
  split
  · exact .inl ⟨‹_›, rfl⟩
  · exact .inr ⟨‹_›, rfl⟩

@[simp] theorem pushByte_none (buf : List Byte) (b : Byte) : pushByte none buf b = (buf ++ [b], 0) := rfl

@[simp] theorem pushBytes_nil (cap : Option Nat) (buf : List Byte) : pushBytes cap buf [] = (buf, 0) := rfl

theorem pushBytes_cons (cap : Option Nat) (buf : List Byte) (b : Byte) (d : List Byte) :
    pushBytes cap buf (b :: d) =
      ((pushBytes cap (pushByte cap buf b).1 d).1, (pushByte cap buf b).2 + (pushBytes cap (pushByte cap buf b).1 d).2) := rfl

/-- Pushing in two parts is pushing the whole: the same buffer, the dropped counts added (R150). -/
theorem pushBytes_append (cap : Option Nat) (buf d e : List Byte) :
    pushBytes cap buf (d ++ e) =
      ((pushBytes cap (pushBytes cap buf d).1 e).1, (pushBytes cap buf d).2 + (pushBytes cap (pushBytes cap buf d).1 e).2) := by
  induction d generalizing buf with
  | nil => simp
  | cons b d ih => simp [pushBytes_cons, ih, Nat.add_assoc]

/-- While the bytes fit below the capacity, nothing is dropped. -/
theorem pushBytes_of_fits (cap : Option Nat) (buf d : List Byte) (h : ∀ c, cap = some c → buf.length + d.length ≤ c) :
    pushBytes cap buf d = (buf ++ d, 0) := by
  induction d generalizing buf with
  | nil => simp
  | cons b d ih =>
    have hp : pushByte cap buf b = (buf ++ [b], 0) := by
      obtain ⟨hc, -⟩ | ⟨-, hp⟩ := pushByte_cases cap buf b
      · have := h _ hc
        simp at this
      · exact hp
    rw [pushBytes_cons, hp, ih]
    · simp
    · intro c hc
      have := h c hc
      simp at this ⊢
      omega

/-- A push keeps a buffer within a capacity that is not zero (R31, R149). -/
theorem pushByte_length_le {c : Nat} {buf : List Byte} (b : Byte) (hc : 0 < c) (h : buf.length ≤ c) :
    (pushByte (some c) buf b).1.length ≤ c := by
  obtain ⟨hf, hp⟩ | ⟨hf, hp⟩ := pushByte_cases (some c) buf b
  · simp [hp] at hf ⊢
    omega
  · simp [hp] at hf ⊢
    omega

theorem pushBytes_length_le {c : Nat} {buf : List Byte} (d : List Byte) (hc : 0 < c) (h : buf.length ≤ c) :
    (pushBytes (some c) buf d).1.length ≤ c := by
  induction d generalizing buf with
  | nil => simpa using h
  | cons b d ih =>
    rw [pushBytes_cons]
    exact ih (pushByte_length_le b hc h)

end Sys2Proof
end

