-- ==== Sys2Proof/Tests/Slice0.lean ====
section
/-! SUPPORT. Checks of the model against spec/95_test_vectors.md and the examples of the rules (each theorem names its source), and witnesses
that the hypotheses of the statements can be met, at the ends of their ranges. -/

namespace Sys2Proof.Tests

open Sys2Proof.Machine

/-- The state an outcome goes on in. -/
def after : Host.Outcome State Fault Refusal → Option State
  | .next t => some t
  | .fault _ => none
  | .refused _ => none

/-- The newest response of an outcome. -/
def answer (o : Host.Outcome State Fault Refusal) : Option Response := (after o).bind fun t => t.responses.getLast?

/-- A state whose receive buffer holds `bs`. -/
def holding (bs : List Byte) : State := { State.reset with rxbuf := bs }

/-- A state whose port holds `bs`. -/
def ported (bs : List Byte) : State := { State.reset with port := bs }

/-- The frame F42 of spec/95_test_vectors.md. -/
def f42 : List Byte := [0x1A, 0xCF, 0x01, 0x00, 0x2A, 0x08, 0x3F, 0x40, 0x00, 0x00, 0xBF, 0x00, 0x00, 0x00, 0x2F, 0x14]

/-- The payload of F42. -/
def payload42 : List Byte := [0x3F, 0x40, 0x00, 0x00, 0xBF, 0x00, 0x00, 0x00]

/-- The frame FE of spec/95_test_vectors.md. -/
def fe : List Byte := [0x1A, 0xCF, 0x00, 0x00, 0x00, 0x00, 0x00, 0x00]

/-! ## WellFormed: each check refuses (R81, R87) -/

theorem test_frmEnc_of_65536_bytes_is_ill_formed : (Instr.frmEnc 1 0 (List.replicate 65536 0)).wellFormed = false := by
  simp only [Instr.wellFormed, fitsCount, List.length_replicate]; decide

theorem test_frmSend_of_65536_bytes_is_ill_formed : (Instr.frmSend 1 (List.replicate 65536 0)).wellFormed = false := by
  simp only [Instr.wellFormed, fitsCount, List.length_replicate]; decide

theorem test_rxPushn_of_65536_bytes_is_ill_formed : (Instr.rxPushn (List.replicate 65536 0)).wellFormed = false := by
  simp only [Instr.wellFormed, fitsCount, List.length_replicate]; decide

/-- Witness for DecodeOfEncodeIsTheCommand and AssemblerReadsWhatIsWritten: the longest list, and an oversize payload. -/
theorem test_witness_well_formed :
    (Instr.rxPushn (List.replicate 65535 0)).wellFormed = true ∧ (Instr.frmSend 1 (List.replicate 256 0)).wellFormed = true := by
  simp only [Instr.wellFormed, fitsCount, List.length_replicate]; decide

/-! ## Decode: words written out from R82, and R85 -/

theorem test_decode_crcClr : decode [0x01] = .command .crcClr [] := by decide
theorem test_decode_crcUpd : decode [0x02, 0x31] = .command (.crcUpd 0x31) [] := by decide
theorem test_decode_crcRd : decode [0x03] = .command .crcRd [] := by decide
/-- R82's layout of FRM.ENC, with a sequence number whose halves differ. -/
theorem test_decode_frmEnc : decode [0x10, 0x01, 0xFF, 0xFE, 0x00, 0x01, 0x7A] = .command (.frmEnc 0x01 0xFFFE [0x7A]) [] := by decide
/-- P2's first command, and the next command's byte. -/
theorem test_decode_frmSend :
    decode [0x11, 0x01, 0x00, 0x08, 0x3F, 0x40, 0x00, 0x00, 0xBF, 0x00, 0x00, 0x00, 0x21] = .command (.frmSend 0x01 payload42) [0x21] := by
  decide
theorem test_decode_seqRd : decode [0x18] = .command .seqRd [] := by decide
theorem test_decode_seqAdv : decode [0x19] = .command .seqAdv [] := by decide
theorem test_decode_rxPush : decode [0x20, 0x1A] = .command (.rxPush 0x1A) [] := by decide
theorem test_decode_rxPushn : decode [0x21, 0x00, 0x03, 0x1A, 0xCF, 0x00] = .command (.rxPushn [0x1A, 0xCF, 0x00]) [] := by decide
theorem test_decode_rxDec : decode [0x22] = .command .rxDec [] := by decide
theorem test_decode_rxLvl : decode [0x23] = .command .rxLvl [] := by decide
theorem test_decode_rxseqRd : decode [0x28] = .command .rxseqRd [] := by decide

/-- The high byte of a count counts (V-ENC-15's header: n = 256, no payload byte yet). -/
theorem test_decode_count_high_byte : decode [0x11, 0x01, 0x01, 0x00] = .incomplete ∧ commandLength [0x11, 0x01, 0x01, 0x00] = some 260 := by
  decide

/-- V-CMD-1, V-CMD-2 and V-CMD-3: unassigned opcodes, at both ends and beside an assigned one. -/
theorem test_decode_unassigned :
    decode [0x00] = .illegal 0x00 [] ∧ decode [0xFF] = .illegal 0xFF [] ∧ decode [0x04, 0x03] = .illegal 0x04 [0x03] := by
  decide

/-- Table words: the second byte is bits 15..8, and operand bytes the table does not give are zero. -/
theorem test_decodeTableWord :
    decodeTableWord 16 0x3102 = some (.crcUpd 0x31) ∧ decodeTableWord 8 0x21 = some (.rxPushn []) ∧
      decodeTableWord 48 0x000100000110 = some (.frmEnc 0x01 0x0000 (List.replicate 256 0)) ∧ decodeTableWord 8 0x04 = none := by
  decide +kernel

/-- A table word placed on the port is the next thing a step runs. -/
theorem test_withFetchWord : answer (step (State.reset.withFetchWord 8 0x22)) = some (.needMoreNoSof 0) := by decide

/-! ## One step of each instruction -/

theorem test_crcClr : (after (exec .crcClr { State.reset with crcAcc := 0xFFFF })).map (·.crcAcc) = some 0x0000 := by decide
/-- R105's example. -/
theorem test_crcUpd : (after (exec (.crcUpd 0x31) State.reset)).map (·.crcAcc) = some 0x200A := by decide +kernel
/-- A nonzero accumulator: the second byte of V-CRC-9. -/
theorem test_crcUpd_of_nonzero : (after (exec (.crcUpd 0xFF) { State.reset with crcAcc := 0x0F78 })).map (·.crcAcc) = some 0xF0B8 := by
  decide +kernel
/-- R106's example. -/
theorem test_crcRd : answer (exec .crcRd { State.reset with crcAcc := 0x2189 }) = some (.crc 0x2189) := by decide
/-- W1. -/
theorem test_frmEnc : answer (exec (.frmEnc 0x01 0x002A payload42) State.reset) = some (.frame f42) := by decide +kernel
/-- V-ENC-16. -/
theorem test_frmEnc_leaves_the_counter :
    (after (exec (.frmEnc 0xFF 0xFFFF []) { State.reset with txSeq := 1 })).map (fun t => (t.txSeq, t.txout)) =
      some (0x0001, [0x1A, 0xCF, 0xFF, 0xFF, 0xFF, 0x00, 0xFC, 0xE1]) := by
  decide +kernel
/-- V-ENC-14. -/
theorem test_frmSend_wraps :
    (after (exec (.frmSend 0x00 []) { State.reset with txSeq := 0xFFFF })).map (fun t => (t.txSeq, t.responses)) =
      some (0x0000, [.sent 0xFFFF [0x1A, 0xCF, 0x00, 0xFF, 0xFF, 0x00, 0x39, 0x33]]) := by
  decide +kernel
/-- V-ENC-15. -/
theorem test_frmSend_oversize :
    after (exec (.frmSend 0x01 (List.replicate 256 0)) { State.reset with txSeq := 5 }) =
      some { State.reset with txSeq := 5, responses := [.payloadTooLarge 256] } := by
  decide +kernel
/-- V-SEQ-8, at a counter value of its own. -/
theorem test_seqRd : answer (exec .seqRd { State.reset with txSeq := 0x00FF }) = some (.seq 0x00FF) := by decide
/-- V-SEQ-9. -/
theorem test_seqAdv_carries : (after (exec .seqAdv { State.reset with txSeq := 0x00FF })).map (·.txSeq) = some 0x0100 := by decide
/-- V-SEQ-10. -/
theorem test_seqAdv_wraps : (after (exec .seqAdv { State.reset with txSeq := 0xFFFF })).map (·.txSeq) = some 0x0000 := by decide
/-- V-BUF-1. -/
theorem test_rxPush : (after (execAt none (.rxPush 0x1A) (holding [0x00]))).map (·.rxbuf) = some [0x00, 0x1A] := by decide
/-- V-BUF-6. -/
theorem test_rxPush_at_capacity :
    (after (execAt (some 263) (.rxPush 0xCF) (holding (List.replicate 262 0 ++ [0x1A])))).map (fun t => (t.rxbuf, t.responses)) =
      some (List.replicate 261 0 ++ [0x1A, 0xCF], [.pushed 1]) := by
  decide +kernel
/-- V-BUF-2. -/
theorem test_rxPushn : (after (execAt none (.rxPushn [0x1A, 0xCF, 0x00]) State.reset)).map (·.rxbuf) = some [0x1A, 0xCF, 0x00] := by decide
/-- R150: the dropped counts of the bytes add up, from V-BUF-8's full buffer. -/
theorem test_rxPushn_at_capacity :
    (after (execAt (some 263) (.rxPushn [0x00, 0x01]) (holding (f42 ++ List.replicate 247 0)))).map (fun t => (t.rxbuf, t.responses)) =
      some (f42.drop 2 ++ List.replicate 248 0 ++ [0x01], [.pushed 2]) := by
  decide +kernel
/-- V-DEC-16: an overlapping candidate. -/
theorem test_rxDec_mismatch :
    (after (exec .rxDec (holding [0x1A, 0x1A, 0xCF, 0x1A, 0xCF, 0x00, 0x00, 0x00, 0x00, 0x00, 0x00]))).map
      (fun t => (t.rxbuf, t.responses)) = some ([0x00, 0x00], [.crcMismatch 9]) := by
  decide +kernel
/-- V-DEC-9 with V-SEQ-13's tracker: the packet after three garbage bytes, and its gap `(42 - 6) mod 65536`. -/
theorem test_rxDec_packet :
    (after (exec .rxDec { holding ([0x00, 0x1A, 0x1A] ++ f42) with lastSeqValid := true, lastSeq := 5 })).map
      (fun t => (t.rxbuf, t.lastSeq, t.responses)) = some ([], 0x002A, [.packet 19 0x01 0x002A payload42 (some 36)]) := by
  decide +kernel
/-- V-BUF-4. -/
theorem test_rxLvl : answer (exec .rxLvl (holding [0x1A, 0xCF, 0x02])) = some (.level 3) := by decide
/-- V-SEQ-12's end state, read. -/
theorem test_rxseqRd : answer (exec .rxseqRd { State.reset with lastSeqValid := true, lastSeq := 7 }) = some (.tracker true 7) := by decide

/-! ## The port, and the pure functions -/

/-- V-CMD-3. -/
theorem test_illegal_command_takes_one_byte :
    after (step (ported [0x04, 0x03])) = some { ported [0x03] with responses := [.illegalCmd 0x04] } := by
  decide
/-- V-CMD-4. -/
theorem test_incomplete_command_holds : step (ported [0x11, 0x01, 0x00]) = .fault .portHold := rfl
/-- R231: with nothing to read the block waits. -/
theorem test_empty_port_waits : step State.reset = .fault .idle := rfl
/-- V-CRC-3, V-CRC-4, V-CRC-6 and V-CRC-11. -/
theorem test_crc16k :
    crc16k [0x01] = 0x1189 ∧ crc16k [0x80] = 0x8408 ∧ crc16k [0x1A] = 0xBFDB ∧ crc16k [0x41] = 0x538D := by
  decide +kernel
/-- V-DEC-12, V-DEC-15 and V-DEC-17. -/
theorem test_tryDecode_incomplete :
    tryDecode (f42.set 5 0x09) = .needMoreIncomplete 0 ∧
      tryDecode [0x1B, 0xCF, 0x00, 0x1A, 0xCF, 0x00, 0xBF, 0x8D] = .needMoreIncomplete 3 ∧
      tryDecode [0xCF, 0xCF, 0x1A, 0xCF, 0x00, 0x00, 0x00, 0x00] = .needMoreIncomplete 2 := by
  decide
/-- R87: both spellings, both bases, both list forms; a `b` above 255 is refused. -/
theorem test_assemble :
    Assembler.assemble ['C', 'R', 'C', '.', 'U', 'P', 'D', ' ', '4', '9'] = some (.crcUpd 0x31) ∧
      Assembler.assemble ['r', 'x', '.', 'p', 'u', 's', 'h', 'n', ' ', '[', '1', 'A', ' ', 'c', 'F', ']'] = some (.rxPushn [0x1A, 0xCF]) ∧
      Assembler.assemble ['r', 'x', '.', 'p', 'u', 's', 'h', 'n', ' ', '"', 'h', ' ', 'i', '"'] = some (.rxPushn [0x68, 0x20, 0x69]) ∧
      Assembler.assemble ['c', 'r', 'c', '.', 'u', 'p', 'd', ' ', '2', '5', '6'] = none := by
  decide +kernel

/-! ## Witnesses: the hypotheses of the statements, met -/

/-- DecodedBytesAreTheEncoding. -/
theorem test_witness_decoded : decode [0x21, 0x00, 0x01, 0x55, 0x01] = .command (.rxPushn [0x55]) [0x01] := by decide

/-- CommandLengthDecidesArrival, UnassignedOpcodeIsIllegalCommand: unassigned opcodes. -/
theorem test_witness_unassigned :
    (0x00 : Byte) ∉ assignedOpcodes ∧ (0x04 : Byte) ∉ assignedOpcodes ∧ (0xFF : Byte) ∉ assignedOpcodes ∧
      (ported [0xFF, 0x01]).port = 0xFF :: [0x01] := by
  decide

/-- CommandLengthDecidesArrival, ResetInputRestoresRegisters: a held port with nothing more to come, a byte to come, and reset to come. -/
theorem test_witness_held :
    decode (ported [0x20]).port = .incomplete ∧ (ported [0x20]).inputs = [] ∧
      ({ ported [0x20] with inputs := [.byte 0x1A] }).inputs = .byte 0x1A :: [] ∧
      ({ ported [] with inputs := [.reset, .byte 0x03] }).inputs = .reset :: [.byte 0x03] ∧ decode (ported []).port = .incomplete := by
  decide

/-- StepRunsTheArrivedCommand, ByteStreamRunsTheCommandList: a command on the port, and two on their way. -/
theorem test_witness_arrival :
    (ported [0x20, 0x1A, 0x22]).port = encode (.rxPush 0x1A) ++ [0x22] ∧
      ({ State.reset with inputs := byteInputs [0x20, 0x1A, 0x22] ++ [Input.reset] }).inputs =
        byteInputs (commandStream [.rxPush 0x1A, .rxDec]) ++ [Input.reset] := by
  decide

/-- SerializedIssuersKeepTheirOrder. -/
theorem test_witness_queues : ([[.seqRd, .rxDec], [.crcRd]] : List (List Instr))[1]? = some [.crcRd] := by decide

/-- GeneratorHoldsTheCrcOfItsUpdates, SendsCarryConsecutiveSequences: a run with commands of every unit. -/
theorem test_witness_runs :
    Instr.crcClr ∉ [.crcUpd 0x31, .rxDec, .crcRd, .crcUpd 0x32] ∧ Instr.seqAdv ∉ [.frmSend 0x01 [], .seqRd, .frmSend 0x02 [0x55]] := by
  decide

/-- The first clause of SendsCarryConsecutiveSequences' end: a run whose sends are few. -/
theorem test_witness_few_sends : ([.sent 0xFFFF [], .done, .sent 0x0000 []].filterMap sentSeq?).length ≤ 65536 := by decide

/-- CrcPropertiesHold: the first and the last bit of a list. -/
theorem test_witness_flip :
    0 < ([0x01, 0x02] : List Byte).length ∧ 1 < ([0x01, 0x02] : List Byte).length ∧ 7 < 8 ∧ flipBit [0x01, 0x02] 1 7 = [0x01, 0x82] := by
  decide

/-- FramingAndGeneratorDoNotInterfere. -/
theorem test_witness_not_crc : Instr.rxDec ≠ .crcClr ∧ (∀ b, Instr.rxDec ≠ .crcUpd b) ∧ Instr.rxDec ≠ .crcRd := by simp

/-- The two sides of the payload bound (EncodedFrameHasTheWireLayout, OversizePayloadFailsClosed, FrmEncEmitsTheFrame, FrmSendEmitsAndAdvances,
GarbagePrefixIsTolerated, PseudoInstructionsHaveTheirEffect). -/
theorem test_witness_payload_lengths :
    ([] : List Byte).length ≤ 255 ∧ (List.replicate 255 (0 : Byte)).length ≤ 255 ∧ 255 < (List.replicate 256 (0 : Byte)).length := by
  simp only [List.length_replicate, List.length_nil]; decide

/-- RxPushAppendsAndDropsOldest: one byte below the capacity, and at it. -/
theorem test_witness_capacity :
    some 263 ≠ some (holding (List.replicate 262 0)).rxbuf.length ∧
      (holding (0x1A :: List.replicate 262 0)).rxbuf = 0x1A :: List.replicate 262 0 ∧
      (holding (0x1A :: List.replicate 262 0)).rxbuf.length = 263 ∧ BufCap.unbounded.cap = none ∧ (BufCap.bounded 0).cap = some 263 := by
  decide +kernel

/-- StepKeepsTheBufferWithinCapacity: reset, with a command to run. -/
theorem test_witness_within_capacity :
    RxBounded Config.bufCap.cap (ported [0x20, 0x55]) ∧ ∃ t, step (ported [0x20, 0x55]) = .next t :=
  ⟨fun _ _ => Nat.zero_le _, _, rfl⟩

/-- DecodeAttemptByWhatTheBufferHolds: no SOF; too few bytes for a header; a header but not the frame; a whole frame, good and bad. -/
theorem test_witness_attempts :
    SofFree [0x00, 0x1A] ∧
      (SofAt [0x55, 0x1A, 0xCF] 1 ∧ ¬ SofAt [0x55, 0x1A, 0xCF] 0 ∧ ([0x55, 0x1A, 0xCF] : List Byte).length - 1 < 8) ∧
      (SofAt (f42.set 5 0x09) 0 ∧ 8 ≤ (f42.set 5 0x09).length ∧ (f42.set 5 0x09).length < 8 + (byteAt (f42.set 5 0x09) 5).toNat) ∧
      (SofAt f42 0 ∧ 8 + (byteAt f42 5).toNat = f42.length ∧ crc16k (slice f42 2 14) = be16 (byteAt f42 14) (byteAt f42 15)) ∧
      (SofAt (f42.set 6 0x3E) 0 ∧ crc16k (slice (f42.set 6 0x3E) 2 14) ≠ be16 (byteAt f42 14) (byteAt f42 15)) := by
  decide +kernel

/-- RxDecDropsAndTracks, AttemptConsumesWithinTheBuffer: each result occurs, the incomplete one with the SOF at the front and after garbage
(V-DEC-4, V-DEC-5, V-DEC-6, V-DEC-11, V-DEC-13). -/
theorem test_witness_results :
    tryDecode [0xCF, 0x1A] = .needMoreNoSof ∧ tryDecode [0x1A, 0xCF] = .needMoreIncomplete 0 ∧
      tryDecode [0x55, 0x66, 0x1A, 0xCF, 0x00] = .needMoreIncomplete 2 ∧
      tryDecode (f42.set 15 0x94) = .crcMismatch 16 ∧ tryDecode fe = .packet 8 ⟨0x00, 0x0000, []⟩ := by
  decide +kernel

/-- BufferAfterNeedMore, RxDecIsIdempotentAfterNeedMore, DrainEndsWithinItsBound: each status occurs. -/
theorem test_witness_statuses :
    (after (exec .rxDec (holding [0x00, 0x11]))).bind lastStatus = some .needMoreNoSof ∧
      (after (exec .rxDec (holding [0x55, 0x1A, 0xCF, 0x00]))).bind lastStatus = some .needMoreIncomplete ∧
      (after (exec .rxDec (holding fe))).bind lastStatus = some .packet ∧
      (after (exec .rxDec (holding (f42.set 6 0x3E)))).bind lastStatus = some .crcMismatch := by
  decide +kernel

/-- EncodedFrameDecodesToItsFields, BackToBackFramesDecodeInTurn: V-DEC-19's buffer. -/
theorem test_witness_frames :
    (holding f42).rxbuf = wireFrame 0x01 0x002A payload42 ∧ payload42.length ≤ 255 ∧
      (holding (f42 ++ fe)).rxbuf = wireFrame 0x01 0x002A payload42 ++ wireFrame 0x00 0x0000 [] := by
  decide +kernel

/-- SingleBitCorruptionIsDetected: the first and last byte of each range of `k` (V-DEC-10, V-DEC-11 among them), the last bit. -/
theorem test_witness_corruption :
    (2 ≤ 2 ∧ 2 < 5) ∧ (2 ≤ 4 ∧ 4 < 5) ∧ (6 ≤ 6 ∧ 6 < (wireFrame 0x01 0x002A payload42).length) ∧
      (6 ≤ 15 ∧ 15 < (wireFrame 0x01 0x002A payload42).length) ∧ 7 < 8 ∧ flipBit (wireFrame 0x01 0x002A payload42) 6 0 = f42.set 6 0x3E ∧
      flipBit (wireFrame 0x01 0x002A payload42) 15 7 = f42.set 15 0x94 := by
  decide +kernel

/-- GarbagePrefixIsTolerated, PartialDeliveryGivesOnePacket: garbage that ends in `1A`; the longest garbage that capacity 263 takes; unbounded. -/
theorem test_witness_garbage :
    SofFree [0x00, 0x1A, 0x1A] ∧ SofFree (List.replicate 261 0) ∧
      (∀ c, some 263 = some c → 263 ≤ c ∧ (List.replicate 261 (0 : Byte)).length + 2 ≤ c) ∧
      (∀ c, (none : Option Nat) = some c → 263 ≤ c ∧ (List.replicate 261 (0 : Byte)).length + 2 ≤ c) := by
  refine ⟨by decide, by decide +kernel, ?_, fun _ h => by cases h⟩
  intro c hc
  cases hc
  decide +kernel

/-- SafeOverflowKeepsEveryPacket: a push that drops a byte of V-BUF-5's full buffer, and one after it. -/
theorem test_witness_safe_overflow : OverflowSafe (some 263) [.rxPush 0x1A, .rxPush 0xCF] (holding (List.replicate 263 0)) := by
  refine ⟨⟨fun _ => by decide +kernel, trivial⟩, fun t h => ?_⟩
  have h1 : (after (execAt (some 263) (.rxPush 0x1A) (holding (List.replicate 263 0)))).map (·.rxbuf) =
      some (List.replicate 262 0 ++ [0x1A]) := by decide +kernel
  rw [h] at h1
  have h2 : t.rxbuf = List.replicate 262 0 ++ [0x1A] := Option.some.inj h1
  rw [OverflowSafe, SafeCommand, h2]
  exact ⟨⟨fun _ => by decide +kernel, trivial⟩, fun _ _ => trivial⟩

/-- DrainingMakesPushesSafe: a drained buffer, and the most bytes that capacity 263 allows. -/
theorem test_witness_drained :
    (rxDrain 2 (holding (fe ++ [0x1A, 0xCF]))).map (fun r => (r.1.rxbuf, r.2)) = some ([0x1A, 0xCF], 2) ∧
      ([0x00] : List Byte).length ≤ 263 - 262 := by
  decide +kernel

/-- StepKeepsTheTrackerOnTheNewestPacket: a state that has accepted two packets, with RX.DEC to run. -/
theorem test_witness_tracker :
    TrackerFollowsPackets { ported [0x22] with
      lastSeqValid := true, lastSeq := 9, rxbuf := fe
      responses := [.packet 8 0 3 [] none, .packet 8 0 9 [] (some 5), .done] } := by
  constructor <;> decide

/-- StepKeepsTxoutTheFramesOfTheResponses: a state with a frame out, with SEQ.RD to run. -/
theorem test_witness_txout : TxoutFollowsResponses { ported [0x18] with txout := fe, responses := [.sent 0 fe, .seq 1] } := by
  simp [TxoutFollowsResponses, responseFrame]

/-- The steps of the three invariants' witnesses go on. -/
theorem test_witness_invariant_steps :
    answer (step (ported [0x22])) = some (.needMoreNoSof 0) ∧ answer (step (ported [0x18])) = some (.seq 0) := by
  decide

/-- LoopbackDeliversEveryFrameInOrder: two messages across the wrap, to a receiver that has accepted nothing. -/
theorem test_witness_loopback :
    (∀ m ∈ ([(0x01, [0x55]), (0x02, [])] : List (Byte × List Byte)), m.2.length ≤ 255) ∧ State.reset.rxbuf = [] ∧
      State.reset.lastSeqValid = false ∧ BitVec.ofNat 16 (({ State.reset with txSeq := 0xFFFF }).txSeq.toNat + 1) = 0x0000 := by
  decide

/-- FailedCommandLeavesNoEffect: each error status, at the port. -/
theorem test_witness_failures :
    ((answer (step (ported [0x00]))).map fun r => r.status.isError) = some true ∧
      ((answer (step (ported (encode (.frmEnc 0x01 0x0000 (List.replicate 256 0)))))).map fun r => r.status.isError) = some true := by
  decide +kernel

/-- OnlyTheNamedCommandsWriteEachRegister: each register and output does change under a command named for it. -/
theorem test_witness_writers :
    (after (exec .crcClr { State.reset with crcAcc := 1 })).map (·.crcAcc) ≠ some 1 ∧
      (after (exec .seqAdv State.reset)).map (·.txSeq) ≠ some 0 ∧
      (after (exec .rxDec (holding fe))).map (fun t => (t.rxbuf, t.lastSeqValid)) = some ([], true) ∧
      (after (exec (.frmEnc 0 0 []) State.reset)).map (·.txout) = some fe := by
  decide +kernel

/-- OutputsOnlyGrow: a step that is no reset. -/
theorem test_witness_no_reset :
    (∃ t, step (ported [0x18]) = .next t) ∧ ¬ (decode (ported [0x18]).port = .incomplete ∧ ∃ later, (ported [0x18]).inputs = .reset :: later) := by
  refine ⟨⟨_, rfl⟩, ?_⟩
  rintro ⟨-, later, h⟩
  cases h

end Sys2Proof.Tests
end

section
/-! PROOFS. What a command can do to the registers and outputs, said once, and the step invariants that follow from it (10_state.md). -/

namespace Sys2Proof.Machine

/-- The ways in which a command can change the state, by what it writes besides its one response. -/
inductive CommandEffect (s : State) : Instr → State → Prop where
  /-- The response alone: the four reads, a payload that is too large, and an RX.DEC that consumes nothing. -/
  | responseOnly {i : Instr} (r : Response) (hp : packetSeq? r = none) (hf : responseFrame r = []) : CommandEffect s i (respond r s)
  /-- R104. -/
  | crcClr : CommandEffect s .crcClr (respond .done (writeCrcAcc crcStart s))
  /-- R105. -/
  | crcUpd (b : Byte) : CommandEffect s (.crcUpd b) (respond .done (writeCrcAcc (crcStep s.crcAcc b) s))
  /-- R122, accepted. -/
  | frmEnc (t : Byte) (sq : U16) (p f : List Byte) (hp : p.length ≤ 255) (hf : encodeFrame t sq p = some f) :
      CommandEffect s (.frmEnc t sq p) (respond (.frame f) (emit f s))
  /-- R123, accepted. -/
  | frmSend (t : Byte) (p f : List Byte) (hp : p.length ≤ 255) (hf : encodeFrame t s.txSeq p = some f) :
      CommandEffect s (.frmSend t p) (writeTxSeq (nextSeq s.txSeq) (respond (.sent s.txSeq f) (emit f s)))
  /-- R182. -/
  | seqAdv : CommandEffect s .seqAdv (respond .done (writeTxSeq (nextSeq s.txSeq) s))
  /-- R148, R149. -/
  | rxPush (b : Byte) : CommandEffect s (.rxPush b)
      (respond (.pushed (pushByte Config.bufCap.cap s.rxbuf b).2) (writeRxbuf (pushByte Config.bufCap.cap s.rxbuf b).1 s))
  /-- R150. -/
  | rxPushn (d : List Byte) : CommandEffect s (.rxPushn d)
      (respond (.pushed (pushBytes Config.bufCap.cap s.rxbuf d).2) (writeRxbuf (pushBytes Config.bufCap.cap s.rxbuf d).1 s))
  /-- R151, an attempt that gives no packet. -/
  | rxDrop (k : Nat) (r : Response) (hp : packetSeq? r = none) (hf : responseFrame r = []) :
      CommandEffect s .rxDec (respond r (writeRxbuf (s.rxbuf.drop k) s))
  /-- R151, an attempt that gives a packet. -/
  | rxPacket (k : Nat) (pkt : Packet) : CommandEffect s .rxDec
      (respond (.packet k pkt.ptype pkt.sequence pkt.payload (gapReport s pkt.sequence))
        (writeTracker pkt.sequence (writeRxbuf (s.rxbuf.drop k) s)))

/-- Every command goes on, in one of those ways. -/
theorem exec_next_effect (i : Instr) (s : State) : ∃ t, exec i s = .next t ∧ CommandEffect s i t := by
  cases i with
  | crcClr => exact ⟨_, rfl, .crcClr⟩
  | crcUpd b => exact ⟨_, rfl, .crcUpd b⟩
  | crcRd => exact ⟨_, rfl, .responseOnly _ rfl rfl⟩
  | frmEnc t sq p =>
    obtain ⟨f, hf, hp, he⟩ | ⟨-, he⟩ := execFrmEnc_cases t sq p s
    · exact ⟨_, he, .frmEnc t sq p f hp hf⟩
    · exact ⟨_, he, .responseOnly _ rfl rfl⟩
  | frmSend t p =>
    obtain ⟨f, hf, hp, he⟩ | ⟨-, he⟩ := execFrmSend_cases t p s
    · exact ⟨_, he, .frmSend t p f hp hf⟩
    · exact ⟨_, he, .responseOnly _ rfl rfl⟩
  | seqRd => exact ⟨_, rfl, .responseOnly _ rfl rfl⟩
  | seqAdv => exact ⟨_, rfl, .seqAdv⟩
  | rxPush b => exact ⟨_, rfl, .rxPush b⟩
  | rxPushn d => exact ⟨_, rfl, .rxPushn d⟩
  | rxDec =>
    obtain ⟨-, he⟩ | ⟨k, -, he⟩ | ⟨k, -, he⟩ | ⟨k, pkt, -, he⟩ := execRxDec_cases s
    · exact ⟨_, he, .responseOnly _ rfl rfl⟩
    · exact ⟨_, he, .rxDrop k _ rfl rfl⟩
    · exact ⟨_, he, .rxDrop k _ rfl rfl⟩
    · exact ⟨_, he, .rxPacket k pkt⟩
  | rxLvl => exact ⟨_, rfl, .responseOnly _ rfl rfl⟩
  | rxseqRd => exact ⟨_, rfl, .responseOnly _ rfl rfl⟩

theorem commandEffect_of_exec {i : Instr} {s t : State} (h : exec i s = .next t) : CommandEffect s i t := by
  obtain ⟨u, hu, he⟩ := exec_next_effect i s
  cases hu.symm.trans h
  exact he

/-- A command gives one response and emits exactly the frame that the response reports (R86, R125). -/
theorem exec_outputs {i : Instr} {s t : State} (h : exec i s = .next t) :
    ∃ r, t.responses = s.responses ++ [r] ∧ t.txout = s.txout ++ responseFrame r := by
  cases commandEffect_of_exec h with
  | responseOnly r _ hf => exact ⟨r, rfl, by simp [hf]⟩
  | rxDrop _ r _ hf => exact ⟨r, rfl, by simp [hf]⟩
  | frmEnc | frmSend => exact ⟨_, rfl, rfl⟩
  | crcClr | crcUpd | seqAdv | rxPush | rxPushn | rxPacket => exact ⟨_, rfl, by simp [responseFrame]⟩

/-- A command whose response is no PACKET leaves the tracker; a PACKET sets it to its sequence number (R185). -/
theorem exec_tracker {i : Instr} {s t : State} (h : exec i s = .next t) :
    ∃ r, t.responses = s.responses ++ [r] ∧
      (packetSeq? r = none ∧ t.lastSeqValid = s.lastSeqValid ∧ t.lastSeq = s.lastSeq ∨
        packetSeq? r = some t.lastSeq ∧ t.lastSeqValid = true) := by
  cases commandEffect_of_exec h with
  | responseOnly r hp => exact ⟨r, rfl, .inl ⟨hp, rfl, rfl⟩⟩
  | rxDrop _ r hp => exact ⟨r, rfl, .inl ⟨hp, rfl, rfl⟩⟩
  | rxPacket => exact ⟨_, rfl, .inr ⟨rfl, rfl⟩⟩
  | crcClr | crcUpd | frmEnc | frmSend | seqAdv | rxPush | rxPushn => exact ⟨_, rfl, .inl ⟨rfl, rfl, rfl⟩⟩

/-- A property of the registers and outputs is an invariant of `step` when reset has it and every command and ILLEGAL_CMD keep it. -/
theorem step_invariant {P : State → Prop} (reset : P State.reset) (port : ∀ bs s, P s → P (setPort bs s))
    (inputs : ∀ later s, P s → P (setInputs later s)) (illegal : ∀ op s, P s → P (raise (.illegalCmd op) s))
    (command : ∀ i s t, exec i s = .next t → P s → P t) :
    P State.reset ∧ ∀ s t, P s → step s = .next t → P t := by
  refine ⟨reset, fun s t hs h => ?_⟩
  obtain ⟨i, rest, -, he⟩ | ⟨op, rest, -, rfl⟩ | ⟨b, later, -, -, rfl⟩ | ⟨later, -, -, rfl⟩ := step_cases h
  · exact command i _ t he (port rest s hs)
  · exact illegal op _ (port rest s hs)
  · exact inputs later _ (port _ s hs)
  · exact inputs later _ reset

/-- R3: a bounded capacity holds at least one byte. -/
theorem cap_pos {cap : BufCap} {c : Nat} (h : cap.cap = some c) : 0 < c := by
  cases cap with
  | unbounded => cases h
  | bounded beyond =>
    simp at h
    omega

theorem exec_keeps_rxBounded {i : Instr} {s t : State} (h : exec i s = .next t) (hs : RxBounded Config.bufCap.cap s) :
    RxBounded Config.bufCap.cap t := by
  intro c hc
  have hlen := hs c hc
  have drop_le (k : Nat) : (s.rxbuf.drop k).length ≤ c := by
    simp
    omega
  cases commandEffect_of_exec h with
  | rxPush b =>
    simp only [respond_rxbuf, writeRxbuf_rxbuf, hc]
    exact pushByte_length_le b (cap_pos hc) hlen
  | rxPushn d =>
    simp only [respond_rxbuf, writeRxbuf_rxbuf, hc]
    exact pushBytes_length_le d (cap_pos hc) hlen
  | rxDrop k => exact drop_le k
  | rxPacket k => exact drop_le k
  | responseOnly | crcClr | crcUpd | frmEnc | frmSend | seqAdv => exact hlen

theorem exec_keeps_trackerFollowsPackets {i : Instr} {s t : State} (h : exec i s = .next t) (hs : TrackerFollowsPackets s) :
    TrackerFollowsPackets t := by
  obtain ⟨hvalid, hlast⟩ := hs
  obtain ⟨r, hr, ⟨hp, hv, hl⟩ | ⟨hp, hv⟩⟩ := exec_tracker h
  · simp [TrackerFollowsPackets, hr, hp, hv, hl, hvalid, hlast]
  · simp [TrackerFollowsPackets, hr, hp, hv]

theorem exec_keeps_txoutFollowsResponses {i : Instr} {s t : State} (h : exec i s = .next t) (hs : TxoutFollowsResponses s) :
    TxoutFollowsResponses t := by
  obtain ⟨r, hr, ho⟩ := exec_outputs h
  unfold TxoutFollowsResponses at hs ⊢
  simp [hr, ho, hs]

/-- Settles O30: only the pushes lengthen RXBUF, and a full buffer drops its oldest byte. -/
theorem stepKeepsTheBufferWithinCapacity : Obligations.StepKeepsTheBufferWithinCapacity :=
  step_invariant (fun _ _ => Nat.zero_le _) (fun _ _ hs => hs) (fun _ _ hs => hs) (fun _ _ hs => hs)
    fun _ _ _ => exec_keeps_rxBounded

/-- Settles O48: `exec_tracker` ties what a command writes to the tracker to the response it adds. -/
theorem stepKeepsTheTrackerOnTheNewestPacket : Obligations.StepKeepsTheTrackerOnTheNewestPacket :=
  step_invariant ⟨rfl, rfl⟩ (fun _ _ hs => hs) (fun _ _ hs => hs)
    (fun _ _ hs => by simpa [TrackerFollowsPackets, packetSeq?] using hs)
    fun _ _ _ => exec_keeps_trackerFollowsPackets

/-- Settles O55: `exec_outputs` ties what a command emits to the response it adds. -/
theorem stepKeepsTxoutTheFramesOfTheResponses : Obligations.StepKeepsTxoutTheFramesOfTheResponses :=
  step_invariant rfl (fun _ _ hs => hs) (fun _ _ hs => hs)
    (fun _ _ hs => by simpa [TxoutFollowsResponses, responseFrame] using hs)
    fun _ _ _ => exec_keeps_txoutFollowsResponses

/-- Settles O53, by the ways a command can change the state. -/
theorem onlyTheNamedCommandsWriteEachRegister : Obligations.OnlyTheNamedCommandsWriteEachRegister := by
  intro i s t h
  cases commandEffect_of_exec h with
  | responseOnly | crcClr | crcUpd | seqAdv | rxPush | rxPushn | rxDrop => simp
  | frmEnc _ _ _ _ hp => simp [hp]
  | frmSend _ _ _ hp => simp [hp]
  | rxPacket => simp [lastStatus, Response.status]

/-- Settles O56: a command and ILLEGAL_CMD append to the outputs, and an arriving byte leaves them. -/
theorem outputsOnlyGrow : Obligations.OutputsOnlyGrow := by
  intro s t h hreset
  obtain ⟨i, rest, -, he⟩ | ⟨op, rest, -, rfl⟩ | ⟨b, later, -, -, rfl⟩ | ⟨later, hd, hi, -⟩ := step_cases h
  · obtain ⟨r, hr, ho⟩ := exec_outputs he
    simp [hr, ho]
  · simp
  · simp
  · exact absurd ⟨hd, later, hi⟩ hreset

/-- Settles O9: `crcStart`, which `State.reset` writes, is the value of R30. -/
theorem resetValues : Obligations.ResetValues :=
  ⟨crcStart_eq, rfl, rfl, rfl, rfl, rfl⟩

end Sys2Proof.Machine
end

section
/-! PROOFS. The port's single order of several issuers' commands, and the commands that only read (20_memory.md). -/

namespace Sys2Proof.Machine

/-- What the schedule takes from each issuer: as many of its first commands as it is scheduled. -/
def takenFromEach (schedule : List Nat) (queues : List (List Instr)) : List (List Instr) :=
  queues.mapIdx fun k q => q.take (schedule.count k)

theorem takenFromEach_getElem? (schedule : List Nat) (queues : List (List Instr)) (k : Nat) :
    (takenFromEach schedule queues)[k]? = queues[k]?.map fun q => q.take (schedule.count k) := by
  simp [takenFromEach]

theorem takenFromEach_length (schedule : List Nat) (queues : List (List Instr)) :
    (takenFromEach schedule queues).length = queues.length := by
  simp [takenFromEach]

theorem takenFromEach_nil_flatten (queues : List (List Instr)) : (takenFromEach [] queues).flatten = [] := by
  simp [takenFromEach, List.flatten_eq_nil_iff, List.mem_mapIdx]

/-- The port accepts the head of the scheduled issuer's queue. -/
theorem serialize_cons_of_head {k : Nat} {queues : List (List Instr)} {i : Instr} {is : List Instr} (h : queues[k]? = some (i :: is))
    (schedule : List Nat) : serialize (k :: schedule) queues = i :: serialize schedule (queues.set k is) := by
  simp only [serialize, takeFrom_eq_some h]

/-- An issuer with nothing left is passed over. -/
theorem serialize_cons_of_no_head {k : Nat} {queues : List (List Instr)} (h : ∀ i is, queues[k]? ≠ some (i :: is)) (schedule : List Nat) :
    serialize (k :: schedule) queues = serialize schedule queues := by
  simp only [serialize, takeFrom_eq_none h]

/-- Scheduling an issuer with nothing left takes nothing more from any queue. -/
theorem take_count_cons_of_no_head {k n : Nat} {queues : List (List Instr)} {q : List Instr} (h : ∀ i is, queues[k]? ≠ some (i :: is))
    (hq : queues[n]? = some q) (schedule : List Nat) : q.take ((k :: schedule).count n) = q.take (schedule.count n) := by
  by_cases hn : k = n
  · subst hn
    cases q with
    | nil => simp
    | cons i is => exact absurd hq (h i is)
  · rw [List.count_cons_of_ne hn]

theorem takenFromEach_cons_of_no_head {k : Nat} {queues : List (List Instr)} (h : ∀ i is, queues[k]? ≠ some (i :: is))
    (schedule : List Nat) : takenFromEach (k :: schedule) queues = takenFromEach schedule queues := by
  apply List.ext_getElem?
  intro n
  rw [takenFromEach_getElem?, takenFromEach_getElem?]
  cases hq : queues[n]? with
  | none => rfl
  | some q => exact congrArg some (take_count_cons_of_no_head h hq schedule)

/-- Scheduling an issuer puts the head of its queue before what the rest of the schedule takes from it. -/
theorem takenFromEach_cons_of_head {k : Nat} {queues : List (List Instr)} {i : Instr} {is : List Instr} (h : queues[k]? = some (i :: is))
    (schedule : List Nat) : takenFromEach (k :: schedule) queues =
      (takenFromEach schedule (queues.set k is)).set k (i :: is.take (schedule.count k)) := by
  have hk : k < queues.length := (List.getElem?_eq_some_iff.1 h).1
  apply List.ext_getElem?
  intro n
  by_cases hn : k = n
  · subst hn
    have hlen : k < (takenFromEach schedule (queues.set k is)).length := by simpa [takenFromEach_length] using hk
    rw [takenFromEach_getElem?, h, List.getElem?_set_self hlen]
    simp
  · simp [takenFromEach_getElem?, List.getElem?_set_ne hn, List.count_cons_of_ne hn]

/-- An element put before one of the parts is one more element of the whole. -/
theorem flatten_set_cons_perm {α : Type} {parts : List (List α)} {k : Nat} {part : List α} (h : parts[k]? = some part) (a : α) :
    (parts.set k (a :: part)).flatten.Perm (a :: parts.flatten) := by
  induction parts generalizing k with
  | nil => cases h
  | cons first parts ih =>
    cases k with
    | zero =>
      cases h
      rfl
    | succ k => exact ((ih h).append_left first).trans List.perm_middle

/-- The port's order is a rearrangement of what the schedule takes from the issuers. -/
theorem serialize_perm_takenFromEach (schedule : List Nat) (queues : List (List Instr)) :
    (serialize schedule queues).Perm (takenFromEach schedule queues).flatten := by
  induction schedule generalizing queues with
  | nil => simp [serialize, takenFromEach_nil_flatten]
  | cons k schedule ih =>
    by_cases h : ∃ i is, queues[k]? = some (i :: is)
    · obtain ⟨i, is, h⟩ := h
      have hk : k < queues.length := (List.getElem?_eq_some_iff.1 h).1
      have hrest : (takenFromEach schedule (queues.set k is))[k]? = some (is.take (schedule.count k)) := by
        simp [takenFromEach_getElem?, hk]
      rw [serialize_cons_of_head h, takenFromEach_cons_of_head h]
      exact ((ih _).cons i).trans (flatten_set_cons_perm hrest i).symm
    · have h : ∀ i is, queues[k]? ≠ some (i :: is) := by simpa using h
      rw [serialize_cons_of_no_head h, takenFromEach_cons_of_no_head h]
      exact ih queues

/-- What the schedule takes from one issuer stands in the port's order as that issuer ordered it. -/
theorem take_count_sublist_serialize (schedule : List Nat) (queues : List (List Instr)) {n : Nat} {q : List Instr}
    (hq : queues[n]? = some q) : (q.take (schedule.count n)).Sublist (serialize schedule queues) := by
  induction schedule generalizing queues q with
  | nil => simp
  | cons k schedule ih =>
    by_cases h : ∃ i is, queues[k]? = some (i :: is)
    · obtain ⟨i, is, h⟩ := h
      rw [serialize_cons_of_head h]
      by_cases hn : k = n
      · subst hn
        obtain rfl : q = i :: is := Option.some.inj (hq.symm.trans h)
        have hk : k < queues.length := (List.getElem?_eq_some_iff.1 h).1
        rw [List.count_cons_self, List.take_succ_cons]
        exact (ih _ (List.getElem?_set_self hk)).cons_cons i
      · rw [List.count_cons_of_ne hn]
        exact (ih _ ((List.getElem?_set_ne hn).trans hq)).cons i
    · have h : ∀ i is, queues[k]? ≠ some (i :: is) := by simpa using h
      rw [serialize_cons_of_no_head h, take_count_cons_of_no_head h hq]
      exact ih queues hq

/-- Settles O11: each scheduled turn takes one queue's head or nothing, by induction on the schedule. -/
theorem serializedIssuersKeepTheirOrder : Obligations.SerializedIssuersKeepTheirOrder := fun schedule queues =>
  ⟨serialize_perm_takenFromEach schedule queues, fun _ _ => take_count_sublist_serialize schedule queues⟩

/-- A command that only answers, with an answer that no response changes, answers the same when repeated. -/
theorem answers_twice_of_answer {i : Instr} {answer : State → Response} (hexec : ∀ s, exec i s = .next (respond (answer s) s))
    (hanswer : ∀ r s, answer (respond r s) = answer s) (s : State) : ∃ r : Response,
      exec i s = .next { s with responses := s.responses ++ [r] } ∧
      runCommands [i, i] s = .next { s with responses := s.responses ++ [r, r] } := by
  refine ⟨answer s, hexec s, ?_⟩
  have hrun : runCommands [i, i] s = .next (respond (answer s) (respond (answer s) s)) := by
    simp [runCommands, hexec, andThen, hanswer]
  rw [hrun]
  simp [respond]

/-- Settles O54: each of the four answers from the registers alone. -/
theorem readCommandsHaveNoSideEffect : Obligations.ReadCommandsHaveNoSideEffect := by
  intro i hi
  simp only [List.mem_cons, List.not_mem_nil, or_false] at hi
  obtain rfl | rfl | rfl | rfl := hi
  · exact answers_twice_of_answer (answer := fun s => .crc s.crcAcc) (fun _ => rfl) fun _ _ => rfl
  · exact answers_twice_of_answer (answer := fun s => .seq s.txSeq) (fun _ => rfl) fun _ _ => rfl
  · exact answers_twice_of_answer (answer := fun s => .level s.rxbuf.length) (fun _ => rfl) fun _ _ => rfl
  · exact answers_twice_of_answer (answer := fun s => .tracker s.lastSeqValid s.lastSeq) (fun _ => rfl) fun _ _ => rfl

end Sys2Proof.Machine
end

section
/-! PROOFS. The command format: decoder and encoder are inverse, and a command's length by its first bytes (30_encoding.md R80 to R85). -/

namespace Sys2Proof

theorem decode_of_decodeOperands {o : Opcode} {bs rest : List Byte} {i : Instr} (h : decodeOperands o bs = some (i, rest)) :
    decode (o.byte :: bs) = .command i rest := by
  simp only [decode_opcode, h]

/-- Settles O1, by the format of each command; a byte list's count tells where it ends. -/
theorem decodeOfEncodeIsTheCommand : Obligations.DecodeOfEncodeIsTheCommand := by
  intro i rest h
  cases i with
  | crcClr | crcUpd | crcRd | seqRd | seqAdv | rxPush | rxDec | rxLvl | rxseqRd => rfl
  | frmEnc t sq p =>
    have hread : decodeOperands .frmEnc (t :: hiByte sq :: loByte sq :: (encodeCounted p ++ rest)) = some (.frmEnc t sq p, rest) := by
      simp only [decodeOperands, countedBytes_encodeCounted h, Option.map_some, be16_hiByte_loByte]
    exact decode_of_decodeOperands hread
  | frmSend t p =>
    have hread : decodeOperands .frmSend (t :: (encodeCounted p ++ rest)) = some (.frmSend t p, rest) := by
      simp only [decodeOperands, countedBytes_encodeCounted h, Option.map_some]
    exact decode_of_decodeOperands hread
  | rxPushn d =>
    have hread : decodeOperands .rxPushn (encodeCounted d ++ rest) = some (.rxPushn d, rest) := by
      simp only [decodeOperands, countedBytes_encodeCounted h, Option.map_some]
    exact decode_of_decodeOperands hread

theorem decode_eq_command {bs rest : List Byte} {i : Instr} (h : decode bs = .command i rest) :
    ∃ o operands, bs = Opcode.byte o :: operands ∧ decodeOperands o operands = some (i, rest) := by
  cases bs with
  | nil => cases h
  | cons op operands =>
    cases ho : opcodeOf op with
    | none => cases (decode_unassigned ho operands).symm.trans h
    | some o =>
      obtain rfl := opcodeOf_eq_some.1 ho
      refine ⟨o, operands, rfl, ?_⟩
      rw [decode_opcode] at h
      cases hd : decodeOperands o operands with
      | none => simp only [hd] at h; cases h
      | some r => simp only [hd] at h; cases h; rfl

theorem decode_eq_illegal {bs rest : List Byte} {op : Byte} (h : decode bs = .illegal op rest) :
    opcodeOf op = none ∧ bs = op :: rest := by
  cases bs with
  | nil => cases h
  | cons first operands =>
    cases ho : opcodeOf first with
    | none =>
      rw [decode_unassigned ho] at h
      cases h
      exact ⟨ho, rfl⟩
    | some o =>
      obtain rfl := opcodeOf_eq_some.1 ho
      rw [decode_opcode] at h
      cases hd : decodeOperands o operands <;> simp only [hd] at h <;> cases h

/-- Operands that decode are well formed, and are the command's bytes after its opcode. -/
theorem decodeOperands_eq_some {o : Opcode} {bs rest : List Byte} {i : Instr} (h : decodeOperands o bs = some (i, rest)) :
    i.wellFormed = true ∧ o.byte :: bs = encode i ++ rest := by
  cases o with
  | crcClr | crcRd | seqRd | seqAdv | rxDec | rxLvl | rxseqRd => cases h; exact ⟨rfl, rfl⟩
  | crcUpd | rxPush =>
    cases bs with
    | nil => cases h
    | cons b bs => cases h; exact ⟨rfl, rfl⟩
  | frmEnc =>
    match bs, h with
    | t :: sH :: sL :: bs, h =>
      obtain ⟨⟨p, _⟩, hp, hi⟩ := Option.map_eq_some_iff.1 h
      cases hi
      obtain ⟨hfits, rfl⟩ := countedBytes_eq_some hp
      exact ⟨hfits, by simp [encode]⟩
  | frmSend =>
    match bs, h with
    | t :: bs, h =>
      obtain ⟨⟨p, _⟩, hp, hi⟩ := Option.map_eq_some_iff.1 h
      cases hi
      obtain ⟨hfits, rfl⟩ := countedBytes_eq_some hp
      exact ⟨hfits, rfl⟩
  | rxPushn =>
    obtain ⟨⟨d, _⟩, hd, hi⟩ := Option.map_eq_some_iff.1 h
    cases hi
    obtain ⟨hfits, rfl⟩ := countedBytes_eq_some hd
    exact ⟨hfits, rfl⟩

/-- Settles O2, by the format of each opcode. -/
theorem decodedBytesAreTheEncoding : Obligations.DecodedBytesAreTheEncoding := by
  intro bs i rest h
  obtain ⟨o, operands, rfl, ho⟩ := decode_eq_command h
  exact decodeOperands_eq_some ho

/-- A counted list is missing bytes while its count is, or while fewer bytes than the count follow it (R81). -/
theorem countedBytes_eq_none {bs : List Byte} :
    countedBytes bs = none ↔ ∀ nH nL tail, bs = nH :: nL :: tail → tail.length < (be16 nH nL).toNat := by
  match bs with
  | [] | [_] => simp [countedBytes]
  | nH :: nL :: tail => simp [countedBytes_cons, splitBytes_eq_none]

/-- Operands are missing exactly while fewer bytes are there than the command's length (R85). -/
theorem decodeOperands_eq_none (o : Opcode) (bs : List Byte) :
    decodeOperands o bs = none ↔ ∀ len, lengthOf o bs = some len → bs.length + 1 < len := by
  cases o with
  | crcClr | crcRd | seqRd | seqAdv | rxDec | rxLvl | rxseqRd => simp [decodeOperands, lengthOf]
  | crcUpd | rxPush => cases bs <;> simp [decodeOperands, lengthOf]
  | frmEnc =>
    match bs with
    | [] | [_] | [_, _] | [_, _, _] | [_, _, _, _] => simp [decodeOperands, lengthOf, countedBytes_eq_none]
    | _ :: _ :: _ :: nH :: nL :: tail => simp [decodeOperands, lengthOf, countedBytes_eq_none]; omega
  | frmSend =>
    match bs with
    | [] | [_] | [_, _] => simp [decodeOperands, lengthOf, countedBytes_eq_none]
    | _ :: nH :: nL :: tail => simp [decodeOperands, lengthOf, countedBytes_eq_none]; omega
  | rxPushn =>
    match bs with
    | [] | [_] => simp [decodeOperands, lengthOf, countedBytes_eq_none]
    | nH :: nL :: tail => simp [decodeOperands, lengthOf, countedBytes_eq_none]; omega

/-- A command has not arrived exactly while the port holds fewer bytes than its length (R85). -/
theorem decode_eq_incomplete (bs : List Byte) :
    decode bs = .incomplete ↔ ∀ len, commandLength bs = some len → bs.length < len := by
  cases bs with
  | nil => simp [decode, commandLength]
  | cons op operands =>
    cases ho : opcodeOf op with
    | none => simp [decode_unassigned ho, commandLength_unassigned ho]
    | some o =>
      obtain rfl := opcodeOf_eq_some.1 ho
      rw [commandLength_opcode, List.length_cons, ← decodeOperands_eq_none, decode_opcode]
      cases decodeOperands o operands <;> simp

theorem byte_mem_assignedOpcodes (o : Opcode) : o.byte ∈ Machine.assignedOpcodes := by cases o <;> decide

theorem opcodeOf_of_not_assigned {op : Byte} (h : op ∉ Machine.assignedOpcodes) : opcodeOf op = none := by
  rw [opcodeOf_eq_none]
  rintro o rfl
  exact h (byte_mem_assignedOpcodes o)

/-- Bytes that stand at the front of a command, and not all of it, are held (R85, R239): what could be taken from them would also
be taken from the whole command. -/
theorem decode_of_missing_bytes {i : Instr} {arrived missing : List Byte} (hi : i.wellFormed = true)
    (h : encode i = arrived ++ missing) (hm : missing ≠ []) : decode arrived = .incomplete := by
  have whole : decode (arrived ++ missing) = .command i [] := by
    simpa [h] using decodeOfEncodeIsTheCommand i [] hi
  cases hd : decode arrived with
  | incomplete => rfl
  | command j rest =>
    obtain ⟨hj, rfl⟩ := decodedBytesAreTheEncoding _ _ _ hd
    rw [List.append_assoc, decodeOfEncodeIsTheCommand _ _ hj] at whole
    exact absurd (List.append_eq_nil_iff.1 (Fetched.command.inj whole).2).2 hm
  | illegal op rest =>
    obtain ⟨hop, rfl⟩ := decode_eq_illegal hd
    rw [List.cons_append, decode_unassigned hop] at whole
    cases whole

end Sys2Proof
end

section
/-! PROOFS. The command port: what a step does with what the decoder finds, and a byte stream as a run of its commands (30_encoding.md R80, R83,
R85; 20_memory.md R59). -/

namespace Sys2Proof.Machine

theorem step_of_command {s : State} {i : Instr} {rest : List Byte} (h : decode s.port = .command i rest) :
    step s = exec i (setPort rest s) := by
  simp only [step, h]

theorem step_of_illegal {s : State} {op : Byte} {rest : List Byte} (h : decode s.port = .illegal op rest) :
    step s = .next (illegalCommand op rest s) := by
  simp only [step, h]

theorem step_of_byte {s : State} {b : Byte} {later : List Input} (h : decode s.port = .incomplete) (hi : s.inputs = .byte b :: later) :
    step s = .next (arrive b later s) := by
  simp only [step, h, hi]

theorem step_of_reset {s : State} {later : List Input} (h : decode s.port = .incomplete) (hi : s.inputs = .reset :: later) :
    step s = .next (applyReset later) := by
  simp only [step, h, hi]

theorem step_of_no_input {s : State} (h : decode s.port = .incomplete) (hi : s.inputs = []) : ∃ r, step s = .fault r := by
  simp only [step, h, hi]
  split <;> exact ⟨_, rfl⟩

/-- Settles O3: the lengths are `lengthOf`'s own, the hold is `decode_eq_incomplete`, and a held port has three ways on. -/
theorem commandLengthDecidesArrival : Obligations.CommandLengthDecidesArrival := by
  refine ⟨?_, ?_, ?_, ?_, ?_, ?_, decode_eq_incomplete, fun _ => step_of_no_input, fun _ _ _ => step_of_byte, ?_⟩
  · intro op hop bs
    fin_cases hop <;> rfl
  · intro op hop bs
    fin_cases hop <;> rfl
  · intro b1 b2 b3 nH nL bs
    exact (commandLength_opcode .frmEnc _).trans (by rw [lengthOf, be16_toNat])
  · intro b1 nH nL bs
    exact (commandLength_opcode .frmSend _).trans (by rw [lengthOf, be16_toNat])
  · intro nH nL bs
    exact (commandLength_opcode .rxPushn _).trans (by rw [lengthOf, be16_toNat])
  · exact fun op hop => commandLength_unassigned (opcodeOf_of_not_assigned hop)
  · exact fun s later hd hi => ⟨_, step_of_reset hd hi, rfl⟩

/-- Settles O4: no command has such an opcode, so that the decoder answers it by itself. -/
theorem unassignedOpcodeIsIllegalCommand : Obligations.UnassignedOpcodeIsIllegalCommand := by
  intro op rest s hop hport
  have hd : decode s.port = .illegal op rest := by rw [hport, decode_unassigned (opcodeOf_of_not_assigned hop)]
  exact step_of_illegal hd

/-- Settles O6: the front of the port decodes to the command (O1). -/
theorem stepRunsTheArrivedCommand : Obligations.StepRunsTheArrivedCommand := by
  intro i rest s hi hport
  have hd : decode s.port = .command i rest := by rw [hport, decodeOfEncodeIsTheCommand i rest hi]
  exact step_of_command hd

/-- Settles O5: closed words, which the decoder evaluates. -/
theorem opcodeWordsDecode : Obligations.OpcodeWordsDecode := by
  refine ⟨?_, ?_, ?_, ?_, ?_, ?_, ?_, ?_, ?_, ?_, ?_, ?_⟩ <;> decide

theorem runSteps_add (m n : Nat) (s : State) : runSteps (m + n) s = andThen (runSteps m s) (runSteps n) := by
  induction m generalizing s with
  | zero => simp [runSteps]
  | succ m ih =>
    rw [Nat.succ_add, runSteps, runSteps]
    cases step s <;> simp [ih]

theorem runSteps_one (s : State) : runSteps 1 s = step s := by
  simp only [runSteps]
  cases step s <;> rfl

/-- No command looks at the inputs still to come. -/
theorem exec_setInputs (i : Instr) (later : List Input) (s : State) :
    exec i (setInputs later s) = andThen (exec i s) fun t => .next (setInputs later t) := by
  cases i with
  | crcClr | crcUpd | crcRd | seqRd | seqAdv | rxPush | rxPushn | rxLvl | rxseqRd => rfl
  | frmEnc t sq p =>
    simp only [exec, execFrmEnc]
    split <;> rfl
  | frmSend t p =>
    simp only [exec, execFrmSend, setInputs_txSeq]
    split <;> rfl
  | rxDec =>
    simp only [exec, execRxDec, setInputs_rxbuf]
    split <;> rfl

theorem exec_port {i : Instr} {s t : State} (h : exec i s = .next t) : t.port = s.port := by
  cases commandEffect_of_exec h <;> rfl

/-- The bytes of one command arrive one by one, and nothing runs before the last (R80, R85). -/
theorem runSteps_arrival {i : Instr} (hi : i.wellFormed = true) (later : List Input) {missing : List Byte} {s : State}
    (h : encode i = s.port ++ missing) (hin : s.inputs = byteInputs missing ++ later) :
    runSteps missing.length s = .next (setInputs later (setPort (encode i) s)) := by
  induction missing generalizing s with
  | nil =>
    obtain rfl : s.inputs = later := hin
    rw [h, List.append_nil]
    rfl
  | cons b missing ih =>
    have held : decode s.port = .incomplete := decode_of_missing_bytes hi h (by simp)
    rw [List.length_cons, runSteps, step_of_byte held hin, andThen_next, ih (by simp [h]) rfl]
    rfl

/-- One command's bytes arrive at an empty port, and then it runs with the port empty again. -/
theorem runSteps_command {i : Instr} (hi : i.wellFormed = true) {later : List Input} {s : State} (hport : s.port = [])
    (hin : s.inputs = byteInputs (encode i) ++ later) : runSteps ((encode i).length + 1) s = exec i (setInputs later s) := by
  have hconsumed : setPort [] (setInputs later (setPort (encode i) s)) = setInputs later s := by
    rw [← hport]
    rfl
  have harrived : decode (encode i) = .command i [] := by simpa using decodeOfEncodeIsTheCommand i [] hi
  rw [runSteps_add, runSteps_arrival hi later (by simp [hport]) hin, andThen_next, runSteps_one, step_of_command harrived,
    hconsumed]

/-- Settles O10, by induction on the list of commands: each arrives and runs with the port empty and the next one's bytes to come. -/
theorem byteStreamRunsTheCommandList : Obligations.ByteStreamRunsTheCommandList := by
  intro is
  induction is with
  | nil =>
    intro s later _ _ hin
    obtain rfl : s.inputs = later := hin
    rfl
  | cons i is ih =>
    intro s later hwf hport hin
    obtain ⟨hi, his⟩ := List.forall_mem_cons.1 hwf
    have hin' : s.inputs = byteInputs (encode i) ++ (byteInputs (commandStream is) ++ later) := by
      simpa [commandStream, byteInputs] using hin
    have hlen : (commandStream (i :: is)).length + (i :: is).length =
        ((encode i).length + 1) + ((commandStream is).length + is.length) := by
      simp [commandStream]; omega
    obtain ⟨t, ht, -⟩ := exec_next_effect i s
    calc runSteps ((commandStream (i :: is)).length + (i :: is).length) s
      _ = runSteps ((commandStream is).length + is.length) (setInputs (byteInputs (commandStream is) ++ later) t) := by
        rw [hlen, runSteps_add, runSteps_command hi hport hin', exec_setInputs, ht, andThen_next, andThen_next]
      _ = runCommands is (setInputs later t) := ih _ later his ((exec_port ht).trans hport) rfl
      _ = runCommands (i :: is) (setInputs later s) := by
        rw [runCommands, runCommands, runWith_cons, exec_setInputs, ht, andThen_next, andThen_next]

end Sys2Proof.Machine
end

section
/-! PROOFS. The encoded frame's wire layout (30_encoding.md R70 to R74). -/

namespace Sys2Proof.Machine

/-- The encoder's pseudocode builds the layout of R70. -/
theorem encodeFrame_eq_wireFrame {t : Byte} {sq : U16} {p : List Byte} (h : p.length ≤ 255) :
    encodeFrame t sq p = some (wireFrame t sq p) := encodeFrame_of_le h

theorem wireFrame_length (t : Byte) (sq : U16) (p : List Byte) : (wireFrame t sq p).length = 8 + p.length := by
  simp [wireFrame]
  omega

theorem slice_append_middle (as bs cs : List Byte) : slice (as ++ (bs ++ cs)) as.length (as.length + bs.length) = bs := by
  simp [slice]

theorem wireFrame_payload (t : Byte) (sq : U16) (p : List Byte) : slice (wireFrame t sq p) 6 (6 + p.length) = p :=
  slice_append_middle [0x1A, 0xCF, t, hiByte sq, loByte sq, BitVec.ofNat 8 p.length] p _

/-- Bytes 2 to 6 + N are the header and the payload, over which the frame's CRC is taken (R74). -/
theorem wireFrame_checked (t : Byte) (sq : U16) (p : List Byte) :
    slice (wireFrame t sq p) 2 (6 + p.length) = [t, hiByte sq, loByte sq, BitVec.ofNat 8 p.length] ++ p := by
  have h := slice_append_middle [0x1A, 0xCF] ([t, hiByte sq, loByte sq, BitVec.ofNat 8 p.length] ++ p)
  rw [show 6 + p.length = 2 + ([t, hiByte sq, loByte sq, BitVec.ofNat 8 p.length] ++ p).length by simp; omega]
  exact h _

/-- The last two bytes are that CRC, high byte first (R74). -/
theorem wireFrame_checksum (t : Byte) (sq : U16) (p : List Byte) :
    byteAt (wireFrame t sq p) (6 + p.length) = hiByte (crc16k (slice (wireFrame t sq p) 2 (6 + p.length))) ∧
    byteAt (wireFrame t sq p) (7 + p.length) = loByte (crc16k (slice (wireFrame t sq p) 2 (6 + p.length))) := by
  have hlen : ([0x1A, 0xCF, t, hiByte sq, loByte sq, BitVec.ofNat 8 p.length] ++ p).length = 6 + p.length := by simp; omega
  have hat (k : Nat) := byteAt_append_right ([0x1A, 0xCF, t, hiByte sq, loByte sq, BitVec.ofNat 8 p.length] ++ p)
    (bytesBe16 (crc16k ([t, hiByte sq, loByte sq, BitVec.ofNat 8 p.length] ++ p))) k
  rw [hlen] at hat
  rw [wireFrame_checked, show 7 + p.length = 6 + p.length + 1 by omega]
  exact ⟨hat 0, hat 1⟩

/-- Settles O19: the pseudocode's frame is `wireFrame`, whose parts stand at their offsets. -/
theorem encodedFrameHasTheWireLayout : Obligations.EncodedFrameHasTheWireLayout := by
  intro t sq p hp
  obtain ⟨hhigh, hlow⟩ := wireFrame_checksum t sq p
  have hcount : (BitVec.ofNat 8 p.length).toNat = p.length := by simp; omega
  exact ⟨wireFrame t sq p, encodeFrame_eq_wireFrame hp, wireFrame_length t sq p, rfl, rfl, rfl, hiByte_toNat sq, loByte_toNat sq,
    hcount, wireFrame_payload t sq p, by rw [hhigh, hiByte_toNat], by rw [hlow, loByte_toNat]⟩

end Sys2Proof.Machine
end

section
/-! PROOFS. Every command's one response, and the status codes (30_encoding.md R86). -/

namespace Sys2Proof.Machine

/-- Settles O50: each command's meaning ends in one `respond` or `raise`. -/
theorem everyCommandAnswersOnce : Obligations.EveryCommandAnswersOnce := by
  intro i s
  cases i with
  | crcClr | crcUpd | crcRd | seqRd | seqAdv | rxPush | rxPushn | rxLvl | rxseqRd =>
    exact ⟨_, _, rfl, rfl, .head _⟩
  | frmEnc t sq p =>
    obtain ⟨f, -, -, he⟩ | ⟨-, he⟩ := execFrmEnc_cases t sq p s
    · exact ⟨_, _, he, rfl, .head _⟩
    · exact ⟨_, _, he, rfl, .tail _ (.head _)⟩
  | frmSend t p =>
    obtain ⟨f, -, -, he⟩ | ⟨-, he⟩ := execFrmSend_cases t p s
    · exact ⟨_, _, he, rfl, .head _⟩
    · exact ⟨_, _, he, rfl, .tail _ (.head _)⟩
  | rxDec =>
    obtain ⟨-, he⟩ | ⟨k, -, he⟩ | ⟨k, -, he⟩ | ⟨k, pkt, -, he⟩ := execRxDec_cases s
    · exact ⟨_, _, he, rfl, .tail _ (.head _)⟩
    · exact ⟨_, _, he, rfl, .tail _ (.tail _ (.head _))⟩
    · exact ⟨_, _, he, rfl, .tail _ (.tail _ (.tail _ (.head _)))⟩
    · exact ⟨_, _, he, rfl, .head _⟩

/-- Settles O51: the table of R86, row by row. -/
theorem statusCodesOfResponses : Obligations.StatusCodesOfResponses :=
  ⟨rfl, fun _ => rfl, fun _ => rfl, fun _ _ => rfl, fun _ => rfl, fun _ => rfl, fun _ => rfl, fun _ _ => rfl, fun _ _ _ _ _ => rfl,
    fun _ => rfl, fun _ => rfl, fun _ => rfl, fun _ => rfl, fun _ => rfl⟩

end Sys2Proof.Machine
end

section
/-! PROOFS. The pseudo-instructions have the effect of the commands they stand for (30_encoding.md R88). -/

namespace Sys2Proof.Machine

/-- A run of CRC.UPD commands folds their bytes into the accumulator (R105). -/
theorem runCommands_crcUpd (bs : List Byte) (s : State) :
    ∃ t, runCommands (bs.map Instr.crcUpd) s = .next t ∧ t.crcAcc = bs.foldl crcStep s.crcAcc := by
  induction bs generalizing s with
  | nil => exact ⟨s, rfl, rfl⟩
  | cons b bs ih => exact ih (respond .done (writeCrcAcc (crcStep s.crcAcc b) s))

theorem runCommands_append (is js : List Instr) (s : State) :
    runCommands (is ++ js) s = andThen (runCommands is s) (runCommands js) := runWith_append exec is js s

/-- `crc.calc` ends with CRC.RD's answer, the CRC of its bytes (R107). -/
theorem runCommands_crcCalc (bs : List Byte) (s : State) :
    ∃ t, runCommands (crcCalc bs) s = .next t ∧ t.responses.getLast? = some (.crc (crc16k bs)) := by
  obtain ⟨t, ht, hacc⟩ := runCommands_crcUpd bs (respond .done (writeCrcAcc crcStart s))
  have hcrc : t.crcAcc = crc16k bs := by simpa [crc16k] using hacc
  refine ⟨respond (.crc t.crcAcc) t, ?_, by simp [hcrc]⟩
  calc runCommands (crcCalc bs) s
    _ = runCommands (bs.map Instr.crcUpd ++ [.crcRd]) (respond .done (writeCrcAcc crcStart s)) := rfl
    _ = .next (respond (.crc t.crcAcc) t) := by
      rw [runCommands_append, ht]
      rfl

/-- One RX.PUSH for each byte leaves the bytes pushed in order (R148). -/
theorem runAt_rxPush (cap : Option Nat) (d : List Byte) (s : State) :
    ∃ t, runAt cap (d.map Instr.rxPush) s = .next t ∧ t.rxbuf = (pushBytes cap s.rxbuf d).1 := by
  induction d generalizing s with
  | nil => exact ⟨s, rfl, rfl⟩
  | cons b d ih => exact ih (respond (.pushed (pushByte cap s.rxbuf b).2) (writeRxbuf (pushByte cap s.rxbuf b).1 s))

/-- RX.PUSHN in chunks leaves the bytes of all chunks pushed in order (R150). -/
theorem runAt_rxPushn (cap : Option Nat) (parts : List (List Byte)) (s : State) :
    ∃ t, runAt cap (parts.map Instr.rxPushn) s = .next t ∧ t.rxbuf = (pushBytes cap s.rxbuf parts.flatten).1 := by
  induction parts generalizing s with
  | nil => exact ⟨s, rfl, rfl⟩
  | cons d parts ih =>
    obtain ⟨t, ht, hbuf⟩ := ih (respond (.pushed (pushBytes cap s.rxbuf d).2) (writeRxbuf (pushBytes cap s.rxbuf d).1 s))
    exact ⟨t, ht, by simp [hbuf, pushBytes_append]⟩

theorem rxWrite_wellFormed (d : List Byte) : ∀ i ∈ rxWrite d, i.wellFormed = true := by
  intro i hi
  obtain ⟨c, hc, rfl⟩ := List.mem_map.1 hi
  exact (fitsCount_iff c).2 ((chunks_flatten (by decide) le_rfl).2 c hc)

/-- `rx.write` leaves the buffer of one push per byte (R150). -/
theorem runAt_rxWrite (cap : Option Nat) (d : List Byte) (s : State) :
    ∃ t, runAt cap (rxWrite d) s = .next t ∧ t.rxbuf = (pushBytes cap s.rxbuf d).1 := by
  have hparts : (chunks 65535 d.length d).flatten = d := (chunks_flatten (by decide) le_rfl).1
  simpa only [rxWrite, hparts] using runAt_rxPushn cap (chunks 65535 d.length d) s

/-- `frm.encnext` of an accepted payload: the counter is read, the frame sent with it, and the counter advanced (R88). -/
theorem frmEncNext_of_le {t : Byte} {p : List Byte} (h : p.length ≤ 255) (s : State) : frmEncNext t p s =
    .next (respond .done (writeTxSeq (nextSeq s.txSeq)
      (respond (.frame (wireFrame t s.txSeq p)) (emit (wireFrame t s.txSeq p) (respond (.seq s.txSeq) s))))) := by
  have hseq : exec .seqRd s = .next (respond (.seq s.txSeq) s) := rfl
  have hfrm (u : State) : exec (.frmEnc t s.txSeq p) u =
      .next (respond (.frame (wireFrame t s.txSeq p)) (emit (wireFrame t s.txSeq p) u)) := by
    simp only [exec, execFrmEnc, encodeFrame_eq_wireFrame h]
  simp [frmEncNext, hseq, hfrm, lastStatus, Response.status]
  rfl

/-- `frm.encnext` of an oversize payload: nothing is sent, and the counter stays (R88, R121). -/
theorem frmEncNext_of_lt {t : Byte} {p : List Byte} (h : 255 < p.length) (s : State) :
    frmEncNext t p s = .next (raise (.payloadTooLarge p.length) (respond (.seq s.txSeq) s)) := by
  have hseq : exec .seqRd s = .next (respond (.seq s.txSeq) s) := rfl
  have hfrm (u : State) : exec (.frmEnc t s.txSeq p) u = .next (raise (.payloadTooLarge p.length) u) := by
    simp only [exec, execFrmEnc, encodeFrame_of_lt h]
  simp [frmEncNext, hseq, hfrm, lastStatus, Response.status]

/-- Settles O57, each pseudo-instruction by the run of its own commands. -/
theorem pseudoInstructionsHaveTheirEffect : Obligations.PseudoInstructionsHaveTheirEffect := by
  refine ⟨runCommands_crcCalc, fun cap d s => ⟨rxWrite_wellFormed d, ?_⟩, fun t p s hp => ?_, fun t p s hp => ?_⟩
  · obtain ⟨t, ht, htbuf⟩ := runAt_rxWrite cap d s
    obtain ⟨u, hu, hubuf⟩ := runAt_rxPush cap d s
    exact ⟨t, u, ht, hu, htbuf.trans hubuf.symm⟩
  · exact ⟨_, frmEncNext_of_le hp s, rfl, rfl⟩
  · exact ⟨_, frmEncNext_of_lt hp s, rfl, rfl⟩

end Sys2Proof.Machine
end

section
/-! PROOFS. The assembler reads back the line that writes a command (30_encoding.md R87; log 10). -/

namespace Sys2Proof.Assembler

theorem digits_hexDigit {v : Nat} (hv : v < 16) (acc : Nat) (cs : List Char) :
    digits 16 hexValue acc (hexDigit v :: cs) = digits 16 hexValue (acc * 16 + v) cs := by
  simp only [digits, (hexValue_hexDigit v hv).1]

theorem hexByte_append (b : Byte) (cs : List Char) :
    hexByte b ++ cs = hexDigit (b.toNat / 16) :: hexDigit (b.toNat % 16) :: cs := rfl

theorem digits_hexByte (b : Byte) (acc : Nat) (cs : List Char) :
    digits 16 hexValue acc (hexByte b ++ cs) = digits 16 hexValue (acc * 256 + b.toNat) cs := by
  rw [hexByte_append, digits_hexDigit (by omega), digits_hexDigit (by omega)]
  congr 1
  omega

/-- The characters that follow a number in a written line end it. -/
def EndsNumber (cs : List Char) : Prop := cs = [] ∨ ∃ rest, cs = ',' :: rest

theorem endsNumber_nil : EndsNumber [] := .inl rfl

theorem endsNumber_comma (rest : List Char) : EndsNumber (',' :: rest) := .inr ⟨rest, rfl⟩

theorem digits_of_endsNumber {cs : List Char} (h : EndsNumber cs) (acc : Nat) : digits 16 hexValue acc cs = (acc, cs) := by
  obtain rfl | ⟨rest, rfl⟩ := h
  · rfl
  · have hcomma : hexValue ',' = none := by decide
    simp only [digits, hcomma]

/-- After `0x`, hexadecimal digits that begin with a byte's are read. -/
theorem number_hexByte (b : Byte) (cs : List Char) :
    number ('0' :: 'x' :: (hexByte b ++ cs)) = some (digits 16 hexValue b.toNat cs) := by
  have hfirst : (hexValue (hexDigit (b.toNat / 16))).isSome = true := by
    rw [(hexValue_hexDigit _ (by omega)).1]
    rfl
  have h := digits_hexByte b 0 cs
  rw [hexByte_append] at h ⊢
  rw [number, if_pos hfirst, h, Nat.zero_mul, Nat.zero_add]

theorem bounded_writeByte (b : Byte) {cs : List Char} (h : EndsNumber cs) :
    bounded 255 (writeByte b ++ cs) = some (b.toNat, cs) := by
  have hb : b.toNat ≤ 255 := by omega
  have hnum : number (writeByte b ++ cs) = some (b.toNat, cs) := (number_hexByte b cs).trans (by rw [digits_of_endsNumber h])
  simp [bounded, hnum, hb]

theorem bounded_writeU16 (v : U16) {cs : List Char} (h : EndsNumber cs) :
    bounded 65535 (writeU16 v ++ cs) = some (v.toNat, cs) := by
  have hv : v.toNat ≤ 65535 := by omega
  have hnum : number (writeU16 v ++ cs) = some (v.toNat, cs) := by
    have hval : (hiByte v).toNat * 256 + (loByte v).toNat = v.toNat := by
      rw [hiByte_toNat, loByte_toNat]
      omega
    have h2 := number_hexByte (hiByte v) (hexByte (loByte v) ++ cs)
    rw [digits_hexByte, hval, digits_of_endsNumber h] at h2
    simpa [writeU16] using h2
  simp [bounded, hnum, hv]

/-- A byte's two digits and the space after them are read as the byte. -/
theorem hexBytes_hexByte (b : Byte) (cs : List Char) :
    hexBytes (hexByte b ++ ' ' :: cs) = (hexBytes cs).map fun r => (b :: r.1, r.2) := by
  obtain ⟨hhigh, hspace, hbracket⟩ := hexValue_hexDigit (b.toNat / 16) (by omega)
  obtain ⟨hlow, -⟩ := hexValue_hexDigit (b.toNat % 16) (by omega)
  have hval : BitVec.ofNat 8 (b.toNat / 16 * 16 + b.toNat % 16) = b := by
    rw [Nat.div_add_mod', BitVec.ofNat_toNat, BitVec.setWidth_eq]
  rw [hexByte_append, hexBytes, hhigh, hlow]
  · simp [hval, hexBytes]
  · exact hspace
  · exact hbracket

theorem hexBytes_written (bs : List Byte) (cs : List Char) :
    hexBytes ((bs.flatMap fun b => hexByte b ++ [' ']) ++ ']' :: cs) = some (bs, cs) := by
  induction bs with
  | nil => rw [List.flatMap_nil, List.nil_append, hexBytes]
  | cons b bs ih =>
    simp only [List.flatMap_cons, List.append_assoc, List.cons_append, List.nil_append]
    rw [hexBytes_hexByte, ih, Option.map_some]

theorem countedList_writeBytes {bs : List Byte} (h : fitsCount bs = true) : countedList (writeBytes bs) = some (bs, []) := by
  have hread : byteList (writeBytes bs) = some (bs, []) := hexBytes_written bs []
  simp [countedList, hread, h]

theorem skipSpaces_writeByte (b : Byte) (cs : List Char) : skipSpaces (writeByte b ++ cs) = writeByte b ++ cs :=
  skipSpaces_of_ne (by decide) _

theorem skipSpaces_writeU16 (v : U16) (cs : List Char) : skipSpaces (writeU16 v ++ cs) = writeU16 v ++ cs :=
  skipSpaces_of_ne (by decide) _

theorem skipSpaces_writeBytes (bs : List Byte) : skipSpaces (writeBytes bs) = writeBytes bs :=
  skipSpaces_of_ne (by decide) _

theorem comma_written (cs : List Char) : comma (',' :: ' ' :: cs) = some (skipSpaces cs) := by
  simp [comma, skipSpaces_of_ne (show ',' ≠ ' ' by decide)]

theorem lineEnd_nil (i : Instr) : lineEnd i [] = some i := by simp [lineEnd]

/-- A mnemonic alone on its line. -/
theorem assemble_nameOf (o : Opcode) : assemble (nameOf o) = operands o [] := by
  have hsplit : splitWord (skipSpaces (nameOf o)) = (nameOf o, []) := by cases o <;> decide
  simp [assemble, hsplit]

/-- A mnemonic, a space and the operands. -/
theorem assemble_nameOf_space (o : Opcode) (cs : List Char) : assemble (nameOf o ++ ' ' :: cs) = operands o (skipSpaces cs) := by
  have hskip : skipSpaces (nameOf o ++ ' ' :: cs) = nameOf o ++ ' ' :: cs := by
    cases o <;> exact skipSpaces_of_ne (by decide) _
  simp [assemble, hskip, splitWord_append _ _ (nameOf_no_space o)]

/-- Settles O58: each operand is read back from where it is written, up to the character that ends it. -/
theorem assemblerReadsWhatIsWritten : Obligations.AssemblerReadsWhatIsWritten := by
  intro i h
  cases i with
  | crcClr | crcRd | seqRd | seqAdv | rxDec | rxLvl | rxseqRd => simp only [write, assemble_nameOf, operands, lineEnd_nil]
  | crcUpd b =>
    have hline : write (.crcUpd b) = nameOf .crcUpd ++ ' ' :: (writeByte b ++ []) := by simp [write]
    rw [hline, assemble_nameOf_space, skipSpaces_writeByte, operands, bounded_writeByte b endsNumber_nil]
    simp [lineEnd_nil]
  | rxPush b =>
    have hline : write (.rxPush b) = nameOf .rxPush ++ ' ' :: (writeByte b ++ []) := by simp [write]
    rw [hline, assemble_nameOf_space, skipSpaces_writeByte, operands, bounded_writeByte b endsNumber_nil]
    simp [lineEnd_nil]
  | frmEnc t sq p =>
    have hline : write (.frmEnc t sq p) =
        nameOf .frmEnc ++ ' ' :: (writeByte t ++ ',' :: ' ' :: (writeU16 sq ++ ',' :: ' ' :: writeBytes p)) := by simp [write]
    rw [hline, assemble_nameOf_space, skipSpaces_writeByte]
    simp [operands, bounded_writeByte t (endsNumber_comma _), comma_written, skipSpaces_writeU16,
      bounded_writeU16 sq (endsNumber_comma _), skipSpaces_writeBytes, countedList_writeBytes h, lineEnd_nil]
  | frmSend t p =>
    have hline : write (.frmSend t p) = nameOf .frmSend ++ ' ' :: (writeByte t ++ ',' :: ' ' :: writeBytes p) := by simp [write]
    rw [hline, assemble_nameOf_space, skipSpaces_writeByte]
    simp [operands, bounded_writeByte t (endsNumber_comma _), comma_written, skipSpaces_writeBytes, countedList_writeBytes h,
      lineEnd_nil]
  | rxPushn d =>
    have hline : write (.rxPushn d) = nameOf .rxPushn ++ ' ' :: writeBytes d := by simp [write]
    rw [hline, assemble_nameOf_space, skipSpaces_writeBytes]
    simp [operands, countedList_writeBytes h, lineEnd_nil]

end Sys2Proof.Assembler
end

section
/-! PROOFS. The properties of CRC-16/Kermit, and its three forms fed one bit at a time (40_checksum.md R100 to R103). -/

namespace Sys2Proof

/-- One changed byte changes the register, whatever bytes stand around it. -/
theorem foldl_crcStep_set_ne {bs : List Byte} {k : Nat} {b : Byte} (hk : k < bs.length) (hb : b ≠ bs[k]) (c : U16) :
    (bs.set k b).foldl crcStep c ≠ bs.foldl crcStep c := by
  induction bs generalizing k c with
  | nil => cases hk
  | cons a bs ih =>
    cases k with
    | zero => exact fun h => hb (crcStep_injective_right c (foldl_crcStep_injective bs h))
    | succ k => exact ih (Nat.lt_of_succ_lt_succ hk) hb (crcStep c a)

theorem one_shiftLeft_ne_zero : ∀ j < 8, 1#8 <<< j ≠ 0#8 := by decide

theorem crc16k_flipBit_ne {bs : List Byte} {k j : Nat} (hk : k < bs.length) (hj : j < 8) :
    crc16k (Machine.flipBit bs k j) ≠ crc16k bs := by
  have hflip : byteAt bs k ^^^ 1#8 <<< j ≠ bs[k] := by
    simpa [byteAt, hk] using one_shiftLeft_ne_zero j hj
  rw [crc16k_eq, crc16k_eq]
  exact foldl_crcStep_set_ne hk hflip 0x0000

/-- Settles O16: a fold from 0, a step that keeps 0 on a zero byte, and steps that lose no difference. -/
theorem crcPropertiesHold : Obligations.CrcPropertiesHold := by
  refine ⟨crc16k_nil, crc16k_append, fun bs => ?_, fun _ _ _ => crc16k_flipBit_ne⟩
  have hzero : crcStep 0x0000 0x00 = 0x0000 := by decide
  rw [crc16k_eq, crc16k_eq, List.foldl_cons, hzero]

/-- The reflected register fed one bit: the three forms of R102 meet in this operation. -/
def crcFeed (c : U16) (bit : Bool) : U16 := crcShift (c ^^^ (BitVec.ofBool bit).setWidth 16)

theorem crcFeed_getLsbD (c : U16) (bit : Bool) (i : Nat) :
    (crcFeed c bit).getLsbD i = (c.getLsbD (i + 1) ^^ ((c.getLsbD 0 ^^ bit) && crcPolyReflected.getLsbD i)) := by
  simp [crcFeed, crcShift_getLsbD]

/-- A shift takes in the operand's lowest bit; the other bits wait, one place lower. -/
theorem crcShift_xor_eq_crcFeed (c x : U16) : crcShift (c ^^^ x) = crcFeed c (x.getLsbD 0) ^^^ x >>> 1 := by
  apply BitVec.eq_of_getLsbD_eq
  intro i _
  simp only [crcShift_getLsbD, crcFeed_getLsbD, BitVec.getLsbD_xor, BitVec.getLsbD_ushiftRight, Nat.add_comm 1 i]
  cases c.getLsbD (i + 1) <;> cases x.getLsbD (i + 1) <;> simp

theorem crcShift_iterate_xor_eq_foldl (n : Nat) (c x : U16) :
    crcShift^[n] (c ^^^ x) = ((List.range n).map x.getLsbD).foldl crcFeed c ^^^ x >>> n := by
  induction n generalizing c x with
  | zero => simp
  | succ n ih =>
    have hbits : (List.range n).map (x >>> 1).getLsbD = ((List.range n).map Nat.succ).map x.getLsbD := by
      simp [Function.comp_def, Nat.add_comm 1]
    rw [Function.iterate_succ_apply, crcShift_xor_eq_crcFeed, ih, hbits, List.range_succ_eq_map, List.map_cons,
      List.foldl_cons, ← BitVec.shiftRight_add, Nat.add_comm 1 n]

/-- `crc_step` feeds a byte's bits, the least significant first (R100). -/
theorem crcStep_eq_foldl_crcFeed (c : U16) (b : Byte) : crcStep c b = (bitsLsb b).foldl crcFeed c := by
  have hbits : (List.range 8).map (b.setWidth 16).getLsbD = bitsLsb b := by
    apply List.map_congr_left
    intro k hk
    have hk : k < 16 := Nat.lt_trans (List.mem_range.1 hk) (by decide)
    simp [hk]
  have hrest : b.setWidth 16 >>> 8 = 0#16 := by
    apply BitVec.eq_of_toNat_eq
    have := b.isLt
    simp [Nat.shiftRight_eq_div_pow]
    omega
  rw [crcStep_eq, crcShift_iterate_xor_eq_foldl, hbits, hrest, BitVec.xor_zero]

theorem crc16k_eq_foldl_crcFeed (bs : List Byte) : crc16k bs = (bs.flatMap bitsLsb).foldl crcFeed 0x0000 := by
  simp only [crc16k_eq, List.foldl_flatMap, ← crcStep_eq_foldl_crcFeed]

theorem reverse_getLsbD {w i : Nat} {x : BitVec w} (hi : i < w) : x.reverse.getLsbD i = x.getLsbD (w - 1 - i) := by
  rw [BitVec.getLsbD_reverse, BitVec.getMsbD_eq_getLsbD, decide_eq_true hi, Bool.true_and]

theorem bitsMsb_reverse (b : Byte) : bitsMsb b.reverse = bitsLsb b := by
  apply List.map_congr_left
  intro k hk
  have hk : k < 8 := List.mem_range.1 hk
  have hback : 8 - 1 - (7 - k) = k := by omega
  rw [reverse_getLsbD (by omega), hback]

theorem reverse_xor (r p : U16) : (r ^^^ p).reverse = r.reverse ^^^ p.reverse := by
  apply BitVec.eq_of_getLsbD_eq
  intro i hi
  simp only [BitVec.getLsbD_xor, reverse_getLsbD hi]

/-- A register shifted up with a bit let in below is, backwards, shifted down with the bit let in on top. -/
theorem reverse_shiftLeft_or (r : U16) (bit : Bool) :
    (r <<< 1 ||| (BitVec.ofBool bit).setWidth 16).reverse = r.reverse >>> 1 ^^^ (BitVec.ofBool bit).setWidth 16 <<< 15 := by
  apply BitVec.eq_of_getLsbD_eq
  intro i hi
  rw [reverse_getLsbD hi]
  obtain rfl | hlt := Nat.eq_or_lt_of_le (Nat.le_of_lt_succ hi)
  · simp
  · have hbit : r.reverse.getLsbD (1 + i) = r.getLsbD (15 - i - 1) := by
      rw [reverse_getLsbD (by omega), Nat.add_comm 1, ← Nat.sub_sub]
    have hpos : 15 - i ≠ 0 := by omega
    have hle : 15 - i < 16 := by omega
    have hpred : 15 - i - 1 < 16 := by omega
    simp [hbit, hpos, hlt, hle, BitVec.getLsbD_eq_getElem hpred]

theorem reverse_shiftLeft (r : U16) : (r <<< 1).reverse = r.reverse >>> 1 := by
  simpa using reverse_shiftLeft_or r false

/-- The register of the parameter model is the reflected register read backwards (R102). -/
theorem msbShift_reverse (r : U16) (bit : Bool) : (msbShift crcPoly r bit).reverse = crcFeed r.reverse bit := by
  have hlow : (r.reverse ^^^ (BitVec.ofBool bit).setWidth 16).getLsbD 0 = (r.getLsbD 15 ^^ bit) := by
    rw [BitVec.getLsbD_xor, reverse_getLsbD (by decide)]
    simp
  have hrest : (r.reverse ^^^ (BitVec.ofBool bit).setWidth 16) >>> 1 = (r <<< 1).reverse := by
    rw [reverse_shiftLeft, BitVec.ushiftRight_xor_distrib]
    cases bit <;> simp
  rw [crcFeed, crcShift, hlow, hrest, msbShift]
  split
  · exact reverse_xor _ _
  · rfl

theorem crc16k_eq_crcModel (bs : List Byte) : crc16k bs = crcModel 0x1021 0x0000 true true 0x0000 bs := by
  calc crc16k bs
    _ = ((bs.flatMap bitsLsb).foldl (msbShift crcPoly) 0x0000).reverse := by
      rw [crc16k_eq_foldl_crcFeed, ← List.foldl_hom BitVec.reverse fun r bit => (msbShift_reverse r bit).symm]
      rfl
    _ = crcModel 0x1021 0x0000 true true 0x0000 bs := by
      simp [crcModel, bitsMsb_reverse, List.foldl_flatMap, crcPoly]

theorem divideBit_reverse (r : U16) (bit : Bool) :
    (divideBit crcPoly r bit).reverse = crcShift r.reverse ^^^ (BitVec.ofBool bit).setWidth 16 <<< 15 := by
  have hlow : r.reverse.getLsbD 0 = r.getLsbD 15 := reverse_getLsbD (by decide)
  rw [divideBit, crcShift, hlow]
  split
  · rw [reverse_xor, reverse_shiftLeft_or, crcPolyReflected, BitVec.xor_assoc, BitVec.xor_assoc,
      BitVec.xor_comm crcPoly.reverse]
  · exact reverse_shiftLeft_or r bit

/-- A coefficient let in on top leaves the register 16 shifts later, as a bit fed in does at once. -/
theorem crcShift_iterate_ofBool (bit : Bool) :
    crcShift^[16] ((BitVec.ofBool bit).setWidth 16 <<< 15) = crcShift ((BitVec.ofBool bit).setWidth 16) := by
  cases bit with
  | false => exact Function.iterate_fixed (f := crcShift) (x := 0#16) (by decide) 16
  | true =>
    have hhigh : crcShift^[8] 0x8000#16 = 0x0080#16 := by decide
    have hlow : crcShift^[8] 0x0080#16 = crcShift 0x0001#16 := by decide
    exact (Function.iterate_add_apply crcShift 8 8 0x8000#16).trans (by rw [hhigh, hlow]; rfl)

/-- The division register, 16 shifts on, takes each coefficient as the reflected register takes a bit (R102). -/
theorem crcShift_iterate_divideBit (r : U16) (bit : Bool) :
    crcShift^[16] (divideBit crcPoly r bit).reverse = crcFeed (crcShift^[16] r.reverse) bit := by
  rw [divideBit_reverse, crcShift_iterate_xor, crcShift_iterate_ofBool, crcFeed, crcShift_xor,
    (Function.Commute.self_iterate crcShift 16).eq r.reverse]

theorem foldl_divideBit_zeros (n : Nat) (r : U16) :
    ((List.replicate n false).foldl (divideBit crcPoly) r).reverse = crcShift^[n] r.reverse := by
  induction n generalizing r with
  | zero => rfl
  | succ n ih =>
    have hzero : (divideBit crcPoly r false).reverse = crcShift r.reverse := by simp [divideBit_reverse]
    rw [List.replicate_succ, List.foldl_cons, ih, hzero, Function.iterate_succ_apply]

theorem crc16k_eq_crcPolynomial (bs : List Byte) : crc16k bs = crcPolynomial bs := by
  have hfold := List.foldl_hom (fun r : U16 => crcShift^[16] r.reverse) (l := bs.flatMap bitsLsb) (init := 0x0000)
    fun r bit => (crcShift_iterate_divideBit r bit).symm
  have hstart : crcShift^[16] (BitVec.reverse (0x0000 : U16)) = 0x0000 := Function.iterate_fixed (by decide) 16
  rw [crc16k_eq_foldl_crcFeed, crcPolynomial, polyRemainder, List.foldl_append, foldl_divideBit_zeros, ← hfold, hstart]

/-- Settles O17: each other form is the reflected register, fed the same bits and read backwards. -/
theorem kermitFormsAgree : Obligations.KermitFormsAgree :=
  ⟨crc16k_eq_crcModel, crc16k_eq_crcPolynomial, by decide +kernel⟩

end Sys2Proof
end

section
/-! PROOFS. The CRC generator: its three commands, and that no other command writes or reads it (40_checksum.md R104 to R108). -/

namespace Sys2Proof.Machine

/-- Settles O12: `crcStart`, which CRC.CLR writes, is the value of R104. -/
theorem crcClrClearsTheGenerator : Obligations.CrcClrClearsTheGenerator :=
  ⟨decode_opcode .crcClr, fun _ => rfl⟩

/-- Settles O13: the opcode map's row and the command's own meaning. -/
theorem crcUpdFoldsOneByte : Obligations.CrcUpdFoldsOneByte :=
  ⟨fun b rest => decode_opcode .crcUpd (b :: rest), fun _ _ => rfl⟩

/-- Settles O14: the opcode map's row and the command's own meaning. -/
theorem crcRdReadsTheGenerator : Obligations.CrcRdReadsTheGenerator :=
  ⟨decode_opcode .crcRd, fun _ => rfl⟩

theorem exec_crcAcc {i : Instr} {s t : State} (h : exec i s = .next t) (hclr : i ≠ .crcClr) (hupd : ∀ b, i ≠ .crcUpd b) :
    t.crcAcc = s.crcAcc := by
  obtain ⟨hwriters, -⟩ := onlyTheNamedCommandsWriteEachRegister i s t h
  by_contra hne
  obtain hi | ⟨b, hi⟩ := hwriters hne
  · exact hclr hi
  · exact hupd b hi

/-- R108: a command that is not a CRC command does not read the accumulator. -/
theorem exec_writeCrcAcc {i : Instr} (hclr : i ≠ .crcClr) (hupd : ∀ b, i ≠ .crcUpd b) (hrd : i ≠ .crcRd) (c : U16) (s : State) :
    exec i (writeCrcAcc c s) = andThen (exec i s) fun t => .next (writeCrcAcc c t) := by
  cases i with
  | crcClr => exact absurd rfl hclr
  | crcUpd b => exact absurd rfl (hupd b)
  | crcRd => exact absurd rfl hrd
  | seqRd | seqAdv | rxPush | rxPushn | rxLvl | rxseqRd => rfl
  | frmEnc t sq p =>
    simp only [exec, execFrmEnc]
    split <;> rfl
  | frmSend t p =>
    simp only [exec, execFrmSend, writeCrcAcc_txSeq]
    split <;> rfl
  | rxDec =>
    simp only [exec, execRxDec, writeCrcAcc_rxbuf]
    split <;> rfl

/-- Settles O18: such a command neither writes CRC_ACC (O53) nor reads it. -/
theorem framingAndGeneratorDoNotInterfere : Obligations.FramingAndGeneratorDoNotInterfere := by
  intro i s c hclr hupd hrd
  obtain ⟨t, ht, -⟩ := exec_next_effect i s
  refine ⟨t, ht, exec_crcAcc ht hclr hupd, ?_⟩
  calc exec i (writeCrcAcc c s)
    _ = andThen (exec i s) fun t => .next (writeCrcAcc c t) := exec_writeCrcAcc hclr hupd hrd c s
    _ = .next (writeCrcAcc c t) := by rw [ht, andThen_next]

theorem updBytes_cons_of_ne {i : Instr} (hupd : ∀ b, i ≠ .crcUpd b) (is : List Instr) : updBytes (i :: is) = updBytes is := by
  cases i with
  | crcUpd b => exact absurd rfl (hupd b)
  | crcClr | crcRd | frmEnc | frmSend | seqRd | seqAdv | rxPush | rxPushn | rxDec | rxLvl | rxseqRd => rfl

/-- Without CRC.CLR a run folds the bytes of its CRC.UPD commands into the accumulator (R107, R108). -/
theorem runCommands_crcAcc {is : List Instr} (h : Instr.crcClr ∉ is) (s : State) :
    ∃ t, runCommands is s = .next t ∧ t.crcAcc = (updBytes is).foldl crcStep s.crcAcc := by
  induction is generalizing s with
  | nil => exact ⟨s, rfl, rfl⟩
  | cons i is ih =>
    obtain ⟨hclr, his⟩ := List.ne_and_not_mem_of_not_mem_cons h
    by_cases hupd : ∃ b, i = .crcUpd b
    · obtain ⟨b, rfl⟩ := hupd
      exact ih his (respond .done (writeCrcAcc (crcStep s.crcAcc b) s))
    · have hupd : ∀ b, i ≠ .crcUpd b := not_exists.1 hupd
      obtain ⟨u, hu, -⟩ := exec_next_effect i s
      obtain ⟨t, ht, hacc⟩ := ih his u
      refine ⟨t, ?_, ?_⟩
      · rw [runCommands, runWith_cons, hu, andThen_next]
        exact ht
      · rw [hacc, exec_crcAcc hu hclr.symm hupd, updBytes_cons_of_ne hupd]

/-- Settles O15: CRC.CLR begins the fold that is the CRC. -/
theorem generatorHoldsTheCrcOfItsUpdates : Obligations.GeneratorHoldsTheCrcOfItsUpdates := by
  intro is s h
  obtain ⟨t, ht, hacc⟩ := runCommands_crcAcc h (respond .done (writeCrcAcc crcStart s))
  exact ⟨t, ht, by simpa [crc16k] using hacc⟩

end Sys2Proof.Machine
end

section
/-! PROOFS. The frame encoder's two commands on both sides of the payload bound, and their byte strings (41_encoder.md R121 to R124). -/

namespace Sys2Proof.Machine

/-- R121: the encoder builds nothing exactly above the payload bound. -/
theorem encodeFrame_eq_none {t : Byte} {sq : U16} {p : List Byte} : encodeFrame t sq p = none ↔ 255 < p.length := by
  refine ⟨fun hnone => ?_, encodeFrame_of_lt⟩
  by_contra hp
  cases hnone.symm.trans (encodeFrame_eq_wireFrame (Nat.le_of_not_lt hp))

theorem exec_frmEnc_of_le {p : List Byte} (hp : p.length ≤ 255) (t : Byte) (sq : U16) (s : State) :
    exec (.frmEnc t sq p) s = .next (respond (.frame (wireFrame t sq p)) (emit (wireFrame t sq p) s)) := by
  simp only [exec, execFrmEnc, encodeFrame_eq_wireFrame hp]

theorem exec_frmEnc_of_lt {p : List Byte} (hp : 255 < p.length) (t : Byte) (sq : U16) (s : State) :
    exec (.frmEnc t sq p) s = .next (raise (.payloadTooLarge p.length) s) := by
  simp only [exec, execFrmEnc, encodeFrame_of_lt hp]

theorem exec_frmSend_of_le {p : List Byte} (hp : p.length ≤ 255) (t : Byte) (s : State) :
    exec (.frmSend t p) s = .next (writeTxSeq (nextSeq s.txSeq)
      (respond (.sent s.txSeq (wireFrame t s.txSeq p)) (emit (wireFrame t s.txSeq p) s))) := by
  simp only [exec, execFrmSend, encodeFrame_eq_wireFrame hp]

theorem exec_frmSend_of_lt {p : List Byte} (hp : 255 < p.length) (t : Byte) (s : State) :
    exec (.frmSend t p) s = .next (raise (.payloadTooLarge p.length) s) := by
  simp only [exec, execFrmSend, encodeFrame_of_lt hp]

/-- R201: PAYLOAD_TOO_LARGE is the answer of an oversize FRM.ENC or FRM.SEND and of nothing else. -/
theorem oversize_of_payloadTooLarge {i : Instr} {s t : State} (h : exec i s = .next t) (hlast : lastStatus t = some .payloadTooLarge) :
    (∃ ty sq p, i = .frmEnc ty sq p ∧ 255 < p.length) ∨ ∃ ty p, i = .frmSend ty p ∧ 255 < p.length := by
  obtain ⟨u, r, hu, hr, hallowed⟩ := everyCommandAnswersOnce i s
  cases hu.symm.trans h
  have hstatus : r.status = .payloadTooLarge := by simpa [lastStatus, hr] using hlast
  rw [hstatus] at hallowed
  cases i with
  | frmEnc ty sq p =>
    obtain ⟨f, -, -, he⟩ | ⟨hp, -⟩ := execFrmEnc_cases ty sq p s
    · cases he.symm.trans h
      simp [lastStatus, Response.status] at hlast
    · exact .inl ⟨ty, sq, p, rfl, hp⟩
  | frmSend ty p =>
    obtain ⟨f, -, -, he⟩ | ⟨hp, -⟩ := execFrmSend_cases ty p s
    · cases he.symm.trans h
      simp [lastStatus, Response.status] at hlast
    · exact .inr ⟨ty, p, rfl, hp⟩
  | crcClr | crcUpd | crcRd | seqRd | seqAdv | rxPush | rxPushn | rxDec | rxLvl | rxseqRd => simp [allowedStatus] at hallowed

/-- Settles O20: the payload's length decides between the frame and the error, and no other command may give that status. -/
theorem oversizePayloadFailsClosed : Obligations.OversizePayloadFailsClosed :=
  ⟨fun _ _ _ => encodeFrame_eq_none, fun t sq _ s hp => ⟨exec_frmEnc_of_lt hp t sq s, exec_frmSend_of_lt hp t s⟩,
    fun _ _ _ => oversize_of_payloadTooLarge⟩

/-- Settles O23: the payload's length alone decides which of the two effects FRM.ENC has, and neither reads the state. -/
theorem frmEncKeepsNoState : Obligations.FrmEncKeepsNoState := by
  intro t sq p
  by_cases hp : p.length ≤ 255
  · exact ⟨wireFrame t sq p, .frame (wireFrame t sq p), exec_frmEnc_of_le hp t sq⟩
  · refine ⟨[], .payloadTooLarge p.length, fun s => ?_⟩
    rw [List.append_nil]
    exact exec_frmEnc_of_lt (Nat.lt_of_not_le hp) t sq s

/-- R81: `n` bytes behind the two bytes of their count `n` are a byte list operand, whatever follows. -/
theorem countedBytes_of_length {nH nL : Byte} {p : List Byte} (h : p.length = nH.toNat * 256 + nL.toNat) (rest : List Byte) :
    countedBytes (nH :: nL :: (p ++ rest)) = some (p, rest) := by
  rw [countedBytes_cons, be16_toNat, ← h, splitBytes_append]

/-- Settles O21: the format's bytes in order, and FRM.ENC on both sides of the payload bound. -/
theorem frmEncEmitsTheFrame : Obligations.FrmEncEmitsTheFrame := by
  refine ⟨fun t sH sL nH nL p rest h => ?_, fun t sq p s =>
    ⟨fun hp => exec_frmEnc_of_le hp t sq s, fun hp => exec_frmEnc_of_lt hp t sq s⟩⟩
  have hread : decodeOperands .frmEnc (t :: sH :: sL :: nH :: nL :: (p ++ rest)) = some (.frmEnc t (be16 sH sL) p, rest) := by
    simp only [decodeOperands, countedBytes_of_length h, Option.map_some]
  exact decode_of_decodeOperands hread

/-- R180: the counter's next value is its successor modulo 65536. -/
theorem nextSeq_eq_ofNat (v : U16) : nextSeq v = BitVec.ofNat 16 ((v.toNat + 1) % 65536) :=
  BitVec.eq_of_toNat_eq (by simp [nextSeq])

/-- Settles O22: the format's bytes in order, and FRM.SEND on both sides of the payload bound. -/
theorem frmSendEmitsAndAdvances : Obligations.FrmSendEmitsAndAdvances := by
  refine ⟨fun t nH nL p rest h => ?_, fun t p s => ⟨fun hp => ?_, fun hp => exec_frmSend_of_lt hp t s⟩⟩
  · have hread : decodeOperands .frmSend (t :: nH :: nL :: (p ++ rest)) = some (.frmSend t p, rest) := by
      simp only [decodeOperands, countedBytes_of_length h, Option.map_some]
    exact decode_of_decodeOperands hread
  · rw [← nextSeq_eq_ofNat]
    exact exec_frmSend_of_le hp t s

end Sys2Proof.Machine
end

section
/-! PROOFS. The receive buffer's commands: RX.PUSH, RX.PUSHN and RX.LVL (42_decoder.md R148 to R150, R152). -/

namespace Sys2Proof.Machine

/-- RX.PUSH is RX.PUSHN of its one byte (R150). -/
theorem execAt_rxPush_eq_rxPushn (cap : Option Nat) (b : Byte) (s : State) :
    execAt cap (.rxPush b) s = execAt cap (.rxPushn [b]) s := rfl

theorem execAt_rxPush_of_room {cap : Option Nat} {s : State} (h : cap ≠ some s.rxbuf.length) (b : Byte) :
    execAt cap (.rxPush b) s = .next (respond (.pushed 0) (writeRxbuf (s.rxbuf ++ [b]) s)) := by
  simp [execAt, rxPushAt, pushByte, h]

theorem execAt_rxPush_of_full {c : Nat} {s : State} (h : s.rxbuf.length = c) (b : Byte) :
    execAt (some c) (.rxPush b) s = .next (respond (.pushed 1) (writeRxbuf (s.rxbuf.drop 1 ++ [b]) s)) := by
  simp [execAt, rxPushAt, pushByte, h]

/-- R3: a bounded capacity holds one frame of maximum length. -/
theorem maxFrame_le_cap {cap : BufCap} {c : Nat} (h : cap.cap = some c) : 263 ≤ c := by
  cases cap with
  | unbounded => cases h
  | bounded beyond =>
    simp at h
    omega

/-- Settles O27: room or none decides between the two effects of a push. -/
theorem rxPushAppendsAndDropsOldest : Obligations.RxPushAppendsAndDropsOldest := by
  refine ⟨fun b rest => decode_opcode .rxPush (b :: rest), fun cap b s h => execAt_rxPush_of_room h b,
    fun c b old kept s hbuf hlen => ⟨?_, ?_⟩, fun b s => exec_eq_execAt (.rxPush b) s, fun _ => maxFrame_le_cap⟩
  · rw [execAt_rxPush_of_full hlen, hbuf]
    rfl
  · simpa [hbuf] using hlen

/-- Settles O29: the opcode map's row and the command's own meaning. -/
theorem rxLvlReadsTheLength : Obligations.RxLvlReadsTheLength :=
  ⟨decode_opcode .rxLvl, fun _ => rfl⟩

/-- RX.PUSHN in chunks: the buffer is that of all bytes pushed in order, and the answers' dropped counts add up to theirs (R150). -/
theorem runAt_rxPushn_answers (cap : Option Nat) (parts : List (List Byte)) (s : State) :
    ∃ (u : State) (ks : List Nat), runAt cap (parts.map Instr.rxPushn) s = .next u ∧ ks.length = parts.length ∧
      u.responses = s.responses ++ ks.map Response.pushed ∧ pushBytes cap s.rxbuf parts.flatten = (u.rxbuf, ks.sum) := by
  induction parts generalizing s with
  | nil => exact ⟨s, [], rfl, rfl, by simp, rfl⟩
  | cons d parts ih =>
    obtain ⟨u, ks, hrun, hlen, hresp, hpush⟩ :=
      ih (respond (.pushed (pushBytes cap s.rxbuf d).2) (writeRxbuf (pushBytes cap s.rxbuf d).1 s))
    refine ⟨u, (pushBytes cap s.rxbuf d).2 :: ks, hrun, by simp [hlen], by simp [hresp], ?_⟩
    rw [respond_rxbuf, writeRxbuf_rxbuf] at hpush
    rw [List.flatten_cons, pushBytes_append, hpush, List.sum_cons]

theorem runAt_rxPush_eq_rxPushn (cap : Option Nat) (d : List Byte) (s : State) :
    runAt cap (d.map Instr.rxPush) s = runAt cap ((d.map fun b => [b]).map Instr.rxPushn) s := by
  induction d generalizing s with
  | nil => rfl
  | cons b d ih => exact congrArg (andThen (execAt cap (.rxPush b) s)) (funext ih)

theorem execAt_rxPushn_of_pushBytes {cap : Option Nat} {d : List Byte} {s u : State} {k : Nat}
    (h : pushBytes cap s.rxbuf d = (u.rxbuf, k)) :
    execAt cap (.rxPushn d) s = .next { s with rxbuf := u.rxbuf, responses := s.responses ++ [.pushed k] } := by
  simp only [execAt, rxPushnAt, h]
  rfl

/-- Settles O28: one push per byte is RX.PUSHN in chunks of one byte, and chunks of any sizes push the same bytes in order. -/
theorem rxPushnIsItsPushesInOrder : Obligations.RxPushnIsItsPushesInOrder := by
  refine ⟨fun nH nL d rest h => ?_, fun d s => ⟨_, rfl, rfl⟩, fun cap d s => ?_, fun cap ds s => ?_⟩
  · have hread : decodeOperands .rxPushn (nH :: nL :: (d ++ rest)) = some (.rxPushn d, rest) := by
      simp only [decodeOperands, countedBytes_of_length h, Option.map_some]
    exact decode_of_decodeOperands hread
  · obtain ⟨u, ks, hrun, hlen, hresp, hpush⟩ := runAt_rxPushn_answers cap (d.map fun b => [b]) s
    have hbytes : (d.map fun b => [b]).flatten = d := by rw [← List.flatMap_def, List.flatMap_singleton']
    rw [hbytes] at hpush
    exact ⟨u, ks, (runAt_rxPush_eq_rxPushn cap d s).trans hrun, by simpa using hlen, hresp, execAt_rxPushn_of_pushBytes hpush⟩
  · obtain ⟨u, ks, hrun, -, hresp, hpush⟩ := runAt_rxPushn_answers cap ds s
    exact ⟨u, ks, hrun, hresp, execAt_rxPushn_of_pushBytes hpush⟩

end Sys2Proof.Machine
end

section
/-! PROOFS. SOF occurrences, `find_sof`, and the decode attempt by what the buffer holds (42_decoder.md R140 to R146). -/

namespace Sys2Proof.Machine

theorem sofAt_append_right (xs ys : List Byte) (k : Nat) : SofAt (xs ++ ys) (xs.length + k) ↔ SofAt ys k := by
  simp only [SofAt, Nat.add_assoc, List.getElem?_append_right (Nat.le_add_right _ _), Nat.add_sub_cancel_left]

theorem sofAt_append_left {xs : List Byte} {k : Nat} (h : k + 1 < xs.length) (ys : List Byte) : SofAt (xs ++ ys) k ↔ SofAt xs k := by
  simp only [SofAt, List.getElem?_append_left h, List.getElem?_append_left (Nat.lt_of_succ_lt h)]

theorem sofAt_cons_succ (a : Byte) (bs : List Byte) (k : Nat) : SofAt (a :: bs) (k + 1) ↔ SofAt bs k := Iff.rfl

/-- An occurrence's second byte is in the buffer: a lone `1A` at the end is none (R140). -/
theorem succ_lt_length_of_sofAt {bs : List Byte} {k : Nat} (h : SofAt bs k) : k + 1 < bs.length :=
  (List.getElem?_eq_some_iff.1 h.2).1

theorem findSof_eq_some_iff {buf : List Byte} {k : Nat} : findSof buf = some k ↔ SofAt buf k ∧ ∀ j < k, ¬ SofAt buf j := by
  fun_induction findSof buf generalizing k with
  | case1 => simp [SofAt]
  | case2 a => simp [SofAt]
  | case3 a b rest h =>
    obtain ⟨rfl, rfl⟩ := h
    have hfront : SofAt (sof0 :: sof1 :: rest) 0 := ⟨rfl, rfl⟩
    constructor
    · rintro ⟨⟩
      exact ⟨hfront, fun _ hj => absurd hj (Nat.not_lt_zero _)⟩
    · rintro ⟨-, hleast⟩
      by_contra hk
      exact hleast 0 (Nat.pos_of_ne_zero fun h0 => hk (h0 ▸ rfl)) hfront
  | case4 a b rest h ih =>
    have hfront : ¬ SofAt (a :: b :: rest) 0 := fun ⟨ha, hb⟩ => h ⟨Option.some.inj ha, Option.some.inj hb⟩
    cases k with
    | zero => simp [hfront]
    | succ k =>
      have hbehind : (∀ j < k + 1, ¬ SofAt (a :: b :: rest) j) ↔ ∀ j < k, ¬ SofAt (b :: rest) j := by
        rw [Nat.forall_lt_succ_left]
        exact and_iff_right hfront
      rw [hbehind, sofAt_cons_succ, ← ih]
      simp

theorem findSof_eq_none_iff {buf : List Byte} : findSof buf = none ↔ ∀ k, ¬ SofAt buf k := by
  classical
  constructor
  · intro hnone k hk
    have hleast : findSof buf = some (Nat.find ⟨k, hk⟩) :=
      findSof_eq_some_iff.2 ⟨Nat.find_spec ⟨k, hk⟩, fun _ => Nat.find_min ⟨k, hk⟩⟩
    cases hnone.symm.trans hleast
  · intro hfree
    by_contra hsome
    obtain ⟨k, hk⟩ := Option.ne_none_iff_exists'.1 hsome
    exact hfree k (findSof_eq_some_iff.1 hk).1

/-- Settles O31, by the recursion of `find_sof`. -/
theorem findSofIsTheLeastOccurrence : Obligations.FindSofIsTheLeastOccurrence :=
  fun _ => ⟨findSof_eq_none_iff, fun _ => findSof_eq_some_iff⟩

theorem findSof_of_sofAt_zero {buf : List Byte} (h : SofAt buf 0) : findSof buf = some 0 :=
  findSof_eq_some_iff.2 ⟨h, fun _ hj => absurd hj (Nat.not_lt_zero _)⟩

/-- No SOF begins in the bytes `xs` before `ys`: those that reach into `ys` count too. -/
abbrev NoSofIn (xs ys : List Byte) : Prop := ∀ k < xs.length, ¬ SofAt (xs ++ ys) k

theorem findSof_append {xs ys : List Byte} (h : NoSofIn xs ys) : findSof (xs ++ ys) = (findSof ys).map (xs.length + ·) := by
  have hsof (k : Nat) (hk : SofAt (xs ++ ys) k) : ∃ j, k = xs.length + j ∧ SofAt ys j := by
    obtain ⟨j, rfl⟩ := Nat.exists_eq_add_of_le (Nat.le_of_not_lt fun hlt => h k hlt hk)
    exact ⟨j, rfl, (sofAt_append_right xs ys j).1 hk⟩
  cases hy : findSof ys with
  | none =>
    refine findSof_eq_none_iff.2 fun k hk => ?_
    obtain ⟨j, -, hj⟩ := hsof k hk
    exact findSof_eq_none_iff.1 hy j hj
  | some i =>
    obtain ⟨hi, hleast⟩ := findSof_eq_some_iff.1 hy
    refine findSof_eq_some_iff.2 ⟨(sofAt_append_right xs ys i).2 hi, fun k hki hk => ?_⟩
    obtain ⟨j, rfl, hj⟩ := hsof k hk
    exact hleast j (Nat.lt_of_add_lt_add_left hki) hj

/-- The attempt's result when `n` more bytes stand before the first SOF: they are consumed with what it consumes, if there is an SOF. -/
def attemptBehind (n : Nat) : Attempt → Attempt
  | .needMoreNoSof => .needMoreNoSof
  | .needMoreIncomplete k => .needMoreIncomplete (n + k)
  | .packet k pkt => .packet (n + k) pkt
  | .crcMismatch k => .crcMismatch (n + k)

/-- R157, R162: bytes in which no SOF begins change nothing but the count consumed. -/
theorem tryDecode_append {xs ys : List Byte} (h : NoSofIn xs ys) :
    tryDecode (xs ++ ys) = attemptBehind xs.length (tryDecode ys) := by
  cases hy : findSof ys with
  | none => simp [tryDecode, findSof_append h, hy, attemptBehind]
  | some i =>
    have hlen : (xs ++ ys).length - (xs.length + i) = ys.length - i := by
      rw [List.length_append]
      omega
    simp only [tryDecode, findSof_append h, hy, Option.map_some, hlen, Nat.add_assoc, byteAt_append_right, slice_append_right]
    split
    · rfl
    · split
      · rfl
      · split <;> rfl

/-- The payload length that a frame with its SOF at `i` announces (R141). -/
abbrev announcedLength (buf : List Byte) (i : Nat) : Nat := (byteAt buf (i + 5)).toNat

/-- The CRC that the attempt computes over such a frame's header and payload (R141). -/
abbrev computedCrc (buf : List Byte) (i : Nat) : U16 := crc16k (slice buf (i + 2) (i + 6 + announcedLength buf i))

/-- The CRC that such a frame carries (R141). -/
abbrev carriedCrc (buf : List Byte) (i : Nat) : U16 :=
  be16 (byteAt buf (i + 6 + announcedLength buf i)) (byteAt buf (i + 7 + announcedLength buf i))

/-- The fields of such a frame (R144). -/
abbrev packetAt (buf : List Byte) (i : Nat) : Packet :=
  ⟨byteAt buf (i + 2), be16 (byteAt buf (i + 3)) (byteAt buf (i + 4)), slice buf (i + 6) (i + 6 + announcedLength buf i)⟩

theorem tryDecode_eq_needMoreNoSof_iff {buf : List Byte} : tryDecode buf = .needMoreNoSof ↔ findSof buf = none := by
  obtain ⟨hf, ht⟩ | ⟨i, hf, ⟨-, ht⟩ | ⟨-, ⟨-, ht⟩ | ⟨-, ht⟩⟩⟩ := tryDecode_cases buf <;> simp [hf, ht]

/-- The attempt on a buffer with its first SOF at `i` (R141). -/
theorem tryDecode_of_findSof {buf : List Byte} {i : Nat} (hf : findSof buf = some i) :
    (buf.length - i < 8 ∨ buf.length - i < 8 + announcedLength buf i) ∧ tryDecode buf = .needMoreIncomplete i ∨
    8 + announcedLength buf i ≤ buf.length - i ∧
      (computedCrc buf i = carriedCrc buf i ∧ tryDecode buf = .packet (i + (8 + announcedLength buf i)) (packetAt buf i) ∨
       computedCrc buf i ≠ carriedCrc buf i ∧ tryDecode buf = .crcMismatch (i + (8 + announcedLength buf i))) := by
  obtain ⟨hnone, -⟩ | ⟨j, hj, hresult⟩ := tryDecode_cases buf
  · cases hf.symm.trans hnone
  · cases hf.symm.trans hj
    exact hresult

theorem tryDecode_eq_needMoreIncomplete_iff {buf : List Byte} {k : Nat} : tryDecode buf = .needMoreIncomplete k ↔
    findSof buf = some k ∧ (buf.length - k < 8 ∨ buf.length - k < 8 + announcedLength buf k) := by
  constructor
  · intro h
    cases hf : findSof buf with
    | none => cases (tryDecode_eq_needMoreNoSof_iff.2 hf).symm.trans h
    | some i =>
      obtain ⟨hshort, ht⟩ | ⟨-, ⟨-, ht⟩ | ⟨-, ht⟩⟩ := tryDecode_of_findSof hf <;> cases ht.symm.trans h
      exact ⟨rfl, hshort⟩
  · rintro ⟨hf, hshort⟩
    obtain ⟨-, ht⟩ | ⟨hlong, -⟩ := tryDecode_of_findSof hf
    · exact ht
    · omega

theorem tryDecode_packet {buf : List Byte} {i : Nat} (hf : findSof buf = some i) (hlen : 8 + announcedLength buf i ≤ buf.length - i)
    (hcrc : computedCrc buf i = carriedCrc buf i) :
    tryDecode buf = .packet (i + (8 + announcedLength buf i)) (packetAt buf i) := by
  obtain ⟨hshort, -⟩ | ⟨-, ⟨-, ht⟩ | ⟨hne, -⟩⟩ := tryDecode_of_findSof hf
  · omega
  · exact ht
  · exact absurd hcrc hne

theorem tryDecode_crcMismatch {buf : List Byte} {i : Nat} (hf : findSof buf = some i)
    (hlen : 8 + announcedLength buf i ≤ buf.length - i) (hcrc : computedCrc buf i ≠ carriedCrc buf i) :
    tryDecode buf = .crcMismatch (i + (8 + announcedLength buf i)) := by
  obtain ⟨hshort, -⟩ | ⟨-, ⟨heq, -⟩ | ⟨-, ht⟩⟩ := tryDecode_of_findSof hf
  · omega
  · exact absurd heq hcrc
  · exact ht

/-- Settles O32: the first SOF is what `find_sof` answers, and the attempt then branches on the two lengths and the CRC. -/
theorem decodeAttemptByWhatTheBufferHolds : Obligations.DecodeAttemptByWhatTheBufferHolds := by
  refine fun buf => ⟨fun hfree => tryDecode_eq_needMoreNoSof_iff.2 (findSof_eq_none_iff.2 hfree), fun i hi hleast => ?_⟩
  have hf : findSof buf = some i := findSof_eq_some_iff.2 ⟨hi, hleast⟩
  refine ⟨fun hshort => tryDecode_eq_needMoreIncomplete_iff.2 ⟨hf, hshort⟩,
    fun _ hlong => ⟨fun hcrc => ⟨?_, ?_⟩, fun hcrc => ?_⟩⟩
  · rw [Nat.add_assoc]
    exact tryDecode_packet hf hlong hcrc
  · rw [slice_length] <;> omega
  · rw [Nat.add_assoc]
    exact tryDecode_crcMismatch hf hlong hcrc

theorem findSof_pos_iff {buf : List Byte} {i : Nat} (h : findSof buf = some i) : 0 < i ↔ ¬ SofAt buf 0 := by
  obtain ⟨hi, hleast⟩ := findSof_eq_some_iff.1 h
  refine ⟨hleast 0, fun h0 => Nat.pos_of_ne_zero ?_⟩
  rintro rfl
  exact h0 hi

/-- Settles O34: an attempt consumes up to the first SOF, or that and a whole frame that the buffer holds. -/
theorem attemptConsumesWithinTheBuffer : Obligations.AttemptConsumesWithinTheBuffer := by
  intro buf
  cases hf : findSof buf with
  | none =>
    rw [tryDecode_eq_needMoreNoSof_iff.2 hf]
    exact ⟨Nat.zero_le _, fun _ => rfl, nofun, nofun, nofun⟩
  | some i =>
    have hlt : i + 1 < buf.length := findSof_lt hf
    obtain ⟨-, ht⟩ | ⟨hlong, hframe⟩ := tryDecode_of_findSof hf
    · rw [ht]
      refine ⟨Nat.le_of_succ_le (Nat.le_of_lt hlt), nofun, ?_, nofun, nofun⟩
      rintro _ ⟨⟩
      exact ⟨rfl, hlt, findSof_pos_iff hf⟩
    · have hend : i + (8 + announcedLength buf i) ≤ buf.length := by omega
      have hmin : 8 ≤ i + (8 + announcedLength buf i) := by omega
      obtain ⟨-, ht⟩ | ⟨-, ht⟩ := hframe
      · rw [ht]
        refine ⟨hend, nofun, nofun, ?_, nofun⟩
        rintro _ _ ⟨⟩
        exact ⟨i, rfl, (Nat.add_assoc ..).symm, hmin⟩
      · rw [ht]
        refine ⟨hend, nofun, nofun, nofun, ?_⟩
        rintro _ ⟨⟩
        exact ⟨i, rfl, (Nat.add_assoc ..).symm, hmin⟩

/-- NEED_MORE_INCOMPLETE consumes the bytes before the SOF, so that what it leaves is incomplete from its front on (R154). -/
theorem tryDecode_drop_of_needMoreIncomplete {buf : List Byte} {k : Nat} (h : tryDecode buf = .needMoreIncomplete k) :
    tryDecode (buf.drop k) = .needMoreIncomplete 0 := by
  obtain ⟨hf, -⟩ := tryDecode_eq_needMoreIncomplete_iff.1 h
  have hlt := findSof_lt hf
  have hlen : (buf.take k).length = k := by
    rw [List.length_take]
    omega
  have hfree : NoSofIn (buf.take k) (buf.drop k) := by
    rw [NoSofIn, List.take_append_drop, hlen]
    exact (findSof_eq_some_iff.1 hf).2
  have hbehind := tryDecode_append hfree
  rw [List.take_append_drop, hlen, h] at hbehind
  cases hd : tryDecode (buf.drop k) with
  | needMoreIncomplete j =>
    rw [hd, attemptBehind, Attempt.needMoreIncomplete.injEq] at hbehind
    rw [Nat.left_eq_add.1 hbehind]
  | needMoreNoSof | packet | crcMismatch =>
    rw [hd] at hbehind
    cases hbehind

end Sys2Proof.Machine
end

section
/-! PROOFS. RX.DEC by its attempt's result, what it leaves after a NEED_MORE, and rx.drain (42_decoder.md R151, R153 to R155, R163, R164). -/

namespace Sys2Proof.Machine

theorem exec_rxDec_of_needMoreNoSof {s : State} (h : tryDecode s.rxbuf = .needMoreNoSof) :
    exec .rxDec s = .next (respond (.needMoreNoSof 0) s) := by
  simp only [exec, execRxDec, h]
  rfl

theorem exec_rxDec_of_needMoreIncomplete {s : State} {k : Nat} (h : tryDecode s.rxbuf = .needMoreIncomplete k) :
    exec .rxDec s = .next (respond (.needMoreIncomplete k) (writeRxbuf (s.rxbuf.drop k) s)) := by
  simp only [exec, execRxDec, h, Attempt.consumed]

theorem exec_rxDec_of_crcMismatch {s : State} {k : Nat} (h : tryDecode s.rxbuf = .crcMismatch k) :
    exec .rxDec s = .next (respond (.crcMismatch k) (writeRxbuf (s.rxbuf.drop k) s)) := by
  simp only [exec, execRxDec, h, Attempt.consumed]

theorem exec_rxDec_of_packet {s : State} {k : Nat} {pkt : Packet} (h : tryDecode s.rxbuf = .packet k pkt) :
    exec .rxDec s = .next (respond (.packet k pkt.ptype pkt.sequence pkt.payload (gapReport s pkt.sequence))
      (writeTracker pkt.sequence (writeRxbuf (s.rxbuf.drop k) s))) := by
  simp only [exec, execRxDec, h, Attempt.consumed, track_gap, track_state, gapReport_writeRxbuf]

/-- Settles O33: the opcode map's row, and RX.DEC by its attempt's result. -/
theorem rxDecDropsAndTracks : Obligations.RxDecDropsAndTracks :=
  ⟨decode_opcode .rxDec, fun _ => ⟨exec_rxDec_of_needMoreNoSof, fun _ => exec_rxDec_of_needMoreIncomplete,
    fun _ => exec_rxDec_of_crcMismatch, fun _ _ => exec_rxDec_of_packet⟩⟩

/-- Settles O45: each answer carries its attempt's count, and PACKET alone a packet. -/
theorem rxDecProjectsToTheDecoderContract : Obligations.RxDecProjectsToTheDecoderContract := by
  intro s
  cases h : tryDecode s.rxbuf with
  | needMoreNoSof => exact ⟨_, _, exec_rxDec_of_needMoreNoSof h, rfl, rfl, by simp [Response.status, Attempt.projection]⟩
  | needMoreIncomplete k => exact ⟨_, _, exec_rxDec_of_needMoreIncomplete h, rfl, rfl, by simp [Response.status, Attempt.projection]⟩
  | crcMismatch k => exact ⟨_, _, exec_rxDec_of_crcMismatch h, rfl, rfl, by simp [Response.status, Attempt.projection]⟩
  | packet k pkt => exact ⟨_, _, exec_rxDec_of_packet h, rfl, rfl, by simp [Response.status, Attempt.projection]⟩

@[simp] theorem lastStatus_respond (r : Response) (s : State) : lastStatus (respond r s) = some r.status := by
  simp [lastStatus]

/-- What RX.DEC leaves in RXBUF, by the status it answers (R153 to R155). -/
theorem exec_rxDec_status_cases (s : State) : ∃ t, exec .rxDec s = .next t ∧
    (lastStatus t = some .needMoreNoSof ∧ t.rxbuf = s.rxbuf ∧ tryDecode t.rxbuf = .needMoreNoSof ∨
     lastStatus t = some .needMoreIncomplete ∧ tryDecode t.rxbuf = .needMoreIncomplete 0 ∨
     (lastStatus t = some .packet ∨ lastStatus t = some .crcMismatch) ∧ t.rxbuf.length + 8 ≤ s.rxbuf.length) := by
  obtain ⟨hle, -, -, hpacket, hmismatch⟩ := attemptConsumesWithinTheBuffer s.rxbuf
  cases h : tryDecode s.rxbuf with
  | needMoreNoSof => exact ⟨_, exec_rxDec_of_needMoreNoSof h, .inl ⟨lastStatus_respond _ _, rfl, h⟩⟩
  | needMoreIncomplete k =>
    exact ⟨_, exec_rxDec_of_needMoreIncomplete h, .inr (.inl ⟨lastStatus_respond _ _, tryDecode_drop_of_needMoreIncomplete h⟩)⟩
  | packet k pkt =>
    obtain ⟨-, -, -, hge⟩ := hpacket k pkt h
    rw [h, Attempt.consumed] at hle hge
    refine ⟨_, exec_rxDec_of_packet h, .inr (.inr ⟨.inl (lastStatus_respond _ _), ?_⟩)⟩
    rw [respond_rxbuf, writeTracker_rxbuf, writeRxbuf_rxbuf, List.length_drop]
    omega
  | crcMismatch k =>
    obtain ⟨-, -, -, hge⟩ := hmismatch k h
    rw [h, Attempt.consumed] at hle hge
    refine ⟨_, exec_rxDec_of_crcMismatch h, .inr (.inr ⟨.inr (lastStatus_respond _ _), ?_⟩)⟩
    rw [respond_rxbuf, writeRxbuf_rxbuf, List.length_drop]
    omega

/-- The same, as what each status tells of the buffer. -/
theorem exec_rxDec_of_status (s : State) : ∃ t, exec .rxDec s = .next t ∧
    (lastStatus t = some .needMoreNoSof → t.rxbuf = s.rxbuf ∧ tryDecode t.rxbuf = .needMoreNoSof) ∧
    (lastStatus t = some .needMoreIncomplete → tryDecode t.rxbuf = .needMoreIncomplete 0) ∧
    (lastStatus t = some .packet ∨ lastStatus t = some .crcMismatch → t.rxbuf.length + 8 ≤ s.rxbuf.length) := by
  obtain ⟨t, ht, ⟨hst, hbuf, hdec⟩ | ⟨hst, hdec⟩ | ⟨hst | hst, hlen⟩⟩ := exec_rxDec_status_cases s
  · exact ⟨t, ht, fun _ => ⟨hbuf, hdec⟩, by simp [hst], by simp [hst]⟩
  · exact ⟨t, ht, by simp [hst], fun _ => hdec, by simp [hst]⟩
  · exact ⟨t, ht, by simp [hst], by simp [hst], fun _ => hlen⟩
  · exact ⟨t, ht, by simp [hst], by simp [hst], fun _ => hlen⟩

/-- A buffer that begins with the SOF of an incomplete frame is shorter than a frame with the longest payload (R153). -/
theorem incompleteFrame_bounds {buf : List Byte} (h : tryDecode buf = .needMoreIncomplete 0) :
    SofAt buf 0 ∧ buf.length ≤ 262 ∧ (buf.length < 8 ∨ 8 ≤ buf.length ∧ buf.length < 8 + (byteAt buf 5).toNat) := by
  obtain ⟨hf, hshort⟩ := tryDecode_eq_needMoreIncomplete_iff.1 h
  have hbyte := (byteAt buf 5).isLt
  rw [Nat.sub_zero, announcedLength, Nat.zero_add] at hshort
  refine ⟨(findSof_eq_some_iff.1 hf).1, ?_, ?_⟩ <;> omega

/-- Settles O35: what RX.DEC leaves by its status, and the lengths of an incomplete frame. -/
theorem bufferAfterNeedMore : Obligations.BufferAfterNeedMore := by
  intro s
  obtain ⟨t, ht, hnone, hinc, -⟩ := exec_rxDec_of_status s
  refine ⟨t, ht, fun hst => ?_, fun hst => incompleteFrame_bounds (hinc hst)⟩
  obtain ⟨hbuf, hdec⟩ := hnone hst
  exact ⟨hbuf, findSof_eq_none_iff.1 (tryDecode_eq_needMoreNoSof_iff.1 hdec)⟩

/-- Settles O36: what a NEED_MORE leaves gives the same attempt again, with nothing to consume. -/
theorem rxDecIsIdempotentAfterNeedMore : Obligations.RxDecIsIdempotentAfterNeedMore := by
  intro s
  obtain ⟨t, ht, hnone, hinc, -⟩ := exec_rxDec_of_status s
  exact ⟨t, ht, fun hst => exec_rxDec_of_needMoreNoSof (hnone hst).2, fun hst => exec_rxDec_of_needMoreIncomplete (hinc hst)⟩

theorem rxDrain_succ_of_needMore {s t : State} (h : exec .rxDec s = .next t)
    (hst : lastStatus t = some .needMoreNoSof ∨ lastStatus t = some .needMoreIncomplete) (fuel : Nat) :
    rxDrain (fuel + 1) s = some (t, 1) := by
  obtain hst | hst := hst <;> simp only [rxDrain, h, hst]

theorem rxDrain_succ_of_frame {s t : State} (h : exec .rxDec s = .next t)
    (hst : lastStatus t = some .packet ∨ lastStatus t = some .crcMismatch) (fuel : Nat) :
    rxDrain (fuel + 1) s = (rxDrain fuel t).map fun r => (r.1, r.2 + 1) := by
  obtain hst | hst := hst <;> simp only [rxDrain, h, hst]

/-- `rx.drain` ends when its fuel exceeds the number of shortest frames that fit in the buffer. -/
theorem rxDrain_ends {fuel : Nat} {s : State} (hfuel : s.rxbuf.length / 8 < fuel) :
    ∃ t k, rxDrain fuel s = some (t, k) ∧ k ≤ s.rxbuf.length / 8 + 1 ∧
      (lastStatus t = some .needMoreNoSof ∨ lastStatus t = some .needMoreIncomplete) := by
  induction fuel generalizing s with
  | zero => omega
  | succ fuel ih =>
    obtain ⟨t, ht, ⟨hst, -⟩ | ⟨hst, -⟩ | ⟨hst, hlen⟩⟩ := exec_rxDec_status_cases s
    · exact ⟨t, 1, rxDrain_succ_of_needMore ht (.inl hst) fuel, Nat.le_add_left .., .inl hst⟩
    · exact ⟨t, 1, rxDrain_succ_of_needMore ht (.inr hst) fuel, Nat.le_add_left .., .inr hst⟩
    · obtain ⟨u, k, hu, hk, hneed⟩ := ih (s := t) (by omega)
      exact ⟨u, k + 1, by rw [rxDrain_succ_of_frame ht hst, hu, Option.map_some], by omega, hneed⟩

/-- Settles O37: every RX.DEC that does not end the drain takes 8 bytes. -/
theorem drainEndsWithinItsBound : Obligations.DrainEndsWithinItsBound := by
  refine ⟨fun s => ?_, fun s => rxDrain_ends (Nat.lt_succ_self _)⟩
  obtain ⟨t, ht, -, -, hlen⟩ := exec_rxDec_of_status s
  exact ⟨t, ht, hlen⟩

/-- A drained buffer holds no SOF, or begins with the SOF of an incomplete frame. -/
theorem tryDecode_of_rxDrain {fuel k : Nat} {s t : State} (h : rxDrain fuel s = some (t, k)) :
    tryDecode t.rxbuf = .needMoreNoSof ∨ tryDecode t.rxbuf = .needMoreIncomplete 0 := by
  induction fuel generalizing s k with
  | zero => cases h
  | succ fuel ih =>
    obtain ⟨u, hu, ⟨hst, -, hnone⟩ | ⟨hst, hinc⟩ | ⟨hst, -⟩⟩ := exec_rxDec_status_cases s
    · cases (rxDrain_succ_of_needMore hu (.inl hst) fuel).symm.trans h
      exact .inl hnone
    · cases (rxDrain_succ_of_needMore hu (.inr hst) fuel).symm.trans h
      exact .inr hinc
    · rw [rxDrain_succ_of_frame hu hst, Option.map_eq_some_iff] at h
      obtain ⟨⟨u', j⟩, hrest, hr⟩ := h
      cases hr
      exact ih hrest

/-- A pushed byte completes at most an SOF at the end of the buffer. -/
theorem sofAt_of_sofAt_snoc {xs : List Byte} {b : Byte} {k : Nat} (h : SofAt (xs ++ [b]) k) : SofAt xs k ∨ k + 1 = xs.length := by
  have hlt := succ_lt_length_of_sofAt h
  rw [List.length_append, List.length_singleton] at hlt
  by_cases hk : k + 1 < xs.length
  · exact .inl ((sofAt_append_left hk [b]).1 h)
  · exact .inr (by omega)

/-- Pushes are safe when every SOF stands so late in the buffer that they cannot drop the bytes before it. -/
theorem safePushes_of_late_sofs {c : Nat} {buf d : List Byte} (hd : d.length < c)
    (h : ∀ k, SofAt buf k → buf.length + d.length ≤ k + c) : SafePushes (some c) buf d := by
  induction d generalizing buf with
  | nil => trivial
  | cons b d ih =>
    rw [List.length_cons] at hd h
    refine ⟨fun hfull h0 => ?_, ih (by omega) fun k hk => ?_⟩
    · have := h 0 h0
      cases hfull
      omega
    · obtain ⟨hfull, hp⟩ | ⟨-, hp⟩ := pushByte_cases (some c) buf b
      · cases hfull
        rw [hp] at hk ⊢
        cases buf with
        | nil => cases hd
        | cons a kept =>
          simp only [List.drop_one, List.tail_cons, List.length_append, List.length_cons, List.length_nil] at hk hd h ⊢
          obtain hk | hk := sofAt_of_sofAt_snoc hk
          · have := h (k + 1) hk
            omega
          · omega
      · rw [hp] at hk ⊢
        rw [List.length_append, List.length_singleton]
        obtain hk | hk := sofAt_of_sofAt_snoc hk
        · have := h k hk
          omega
        · omega

/-- Settles O44: a drained buffer has no SOF, or too few bytes for a push to drop one. -/
theorem drainingMakesPushesSafe : Obligations.DrainingMakesPushesSafe := by
  intro c fuel k s t d hc hdrain hd
  refine safePushes_of_late_sofs (by omega) fun j hj => ?_
  obtain hnone | hinc := tryDecode_of_rxDrain hdrain
  · exact absurd hj (findSof_eq_none_iff.1 (tryDecode_eq_needMoreNoSof_iff.1 hnone) j)
  · obtain ⟨-, hlen, -⟩ := incompleteFrame_bounds hinc
    omega

end Sys2Proof.Machine
end

section
/-! PROOFS. RX.DEC on valid, prefixed, consecutive and corrupted frames, and on a frame that arrives byte by byte (42_decoder.md R156 to
R160). -/

namespace Sys2Proof.Machine

theorem sofAt_wireFrame_zero (t : Byte) (sq : U16) (p rest : List Byte) : SofAt (wireFrame t sq p ++ rest) 0 := ⟨rfl, rfl⟩

theorem announcedLength_wireFrame_append {p : List Byte} (hp : p.length ≤ 255) (t : Byte) (sq : U16) (rest : List Byte) :
    announcedLength (wireFrame t sq p ++ rest) 0 = p.length := by
  have hbyte : byteAt (wireFrame t sq p ++ rest) (0 + 5) = BitVec.ofNat 8 p.length := rfl
  rw [announcedLength, hbyte, BitVec.toNat_ofNat]
  omega

theorem computedCrc_eq_carriedCrc_of_wireFrame {p : List Byte} (hp : p.length ≤ 255) (t : Byte) (sq : U16) (rest : List Byte) :
    computedCrc (wireFrame t sq p ++ rest) 0 = carriedCrc (wireFrame t sq p ++ rest) 0 := by
  obtain ⟨hhigh, hlow⟩ := wireFrame_checksum t sq p
  have hlen := wireFrame_length t sq p
  simp only [computedCrc, carriedCrc, announcedLength_wireFrame_append hp, Nat.zero_add]
  rw [slice_append_left _ _ _ _ (by omega), byteAt_append_left _ _ _ (by omega), byteAt_append_left _ _ _ (by omega), hhigh, hlow,
    be16_hiByte_loByte]

/-- R156: a valid frame at the front is decoded to its fields, whatever follows it. -/
theorem tryDecode_wireFrame_append {p : List Byte} (hp : p.length ≤ 255) (t : Byte) (sq : U16) (rest : List Byte) :
    tryDecode (wireFrame t sq p ++ rest) = .packet (wireFrame t sq p).length ⟨t, sq, p⟩ := by
  have hlen := wireFrame_length t sq p
  have hann := announcedLength_wireFrame_append hp t sq rest
  have hpayload : slice (wireFrame t sq p ++ rest) 6 (6 + p.length) = p := by
    rw [slice_append_left _ _ _ _ (by omega), wireFrame_payload]
  have hfields : packetAt (wireFrame t sq p ++ rest) 0 = ⟨t, sq, p⟩ := by
    simp only [packetAt, hann, Nat.zero_add, hpayload]
    exact congrArg (Packet.mk t · p) (be16_hiByte_loByte sq)
  have hd := tryDecode_packet (findSof_of_sofAt_zero (sofAt_wireFrame_zero t sq p rest))
    (by rw [hann, List.length_append]; omega) (computedCrc_eq_carriedCrc_of_wireFrame hp t sq rest)
  rw [hd, hann, hfields, hlen, Nat.zero_add]

theorem exec_rxDec_of_wireFrame {p rest : List Byte} {t : Byte} {sq : U16} {s : State} (hp : p.length ≤ 255)
    (h : s.rxbuf = wireFrame t sq p ++ rest) :
    exec .rxDec s = .next (respond (.packet (wireFrame t sq p).length t sq p (gapReport s sq)) (writeTracker sq (writeRxbuf rest s))) := by
  have hd : tryDecode s.rxbuf = .packet (wireFrame t sq p).length ⟨t, sq, p⟩ := by
    rw [h, tryDecode_wireFrame_append hp]
  rw [exec_rxDec_of_packet hd, h, List.drop_left]

/-- Settles O38: the frame is what the encoder builds, and decodes with nothing behind it. -/
theorem encodedFrameDecodesToItsFields : Obligations.EncodedFrameDecodesToItsFields := by
  intro t sq p s hp hbuf
  refine ⟨encodeFrame_eq_wireFrame hp, ?_⟩
  rw [exec_rxDec_of_wireFrame hp (hbuf.trans (List.append_nil _).symm), wireFrame_length]
  rfl

/-- Where no SOF occurs, one can begin only at the last byte, when `CF` follows. -/
theorem noSofIn_of_sofFree {g rest : List Byte} (hg : SofFree g) (hrest : rest[0]? ≠ some 0xCF) : NoSofIn g rest := by
  intro k hk hsof
  by_cases hlast : k + 1 < g.length
  · exact hg k hk ((sofAt_append_left hlast rest).1 hsof)
  · obtain ⟨-, hsecond⟩ := hsof
    have hend : k + 1 - g.length = 0 := by omega
    rw [List.getElem?_append_right (by omega), hend] at hsecond
    exact hrest hsecond

/-- Settles O39: the frame begins with `1A`, so that the garbage completes no SOF with it. -/
theorem garbagePrefixIsTolerated : Obligations.GarbagePrefixIsTolerated := by
  intro g t sq p hg hp
  have hframe : tryDecode (wireFrame t sq p) = .packet (wireFrame t sq p).length ⟨t, sq, p⟩ := by
    simpa using tryDecode_wireFrame_append hp t sq []
  refine ⟨hframe, ?_⟩
  have hfront : (wireFrame t sq p)[0]? ≠ some 0xCF := by simp [wireFrame]
  rw [tryDecode_append (noSofIn_of_sofFree hg hfront), hframe, attemptBehind]

theorem exec_rxDec_takes_wireFrame {p rest : List Byte} {t : Byte} {sq : U16} {s : State} (hp : p.length ≤ 255)
    (h : s.rxbuf = wireFrame t sq p ++ rest) : ∃ u, exec .rxDec s = .next u ∧ u.rxbuf = rest ∧
      u.responses = s.responses ++ [.packet (wireFrame t sq p).length t sq p (gapReport s sq)] ∧
      ∀ next, gapReport u next = some (next - (sq + 1)) :=
  ⟨_, exec_rxDec_of_wireFrame hp h, rfl, rfl, fun _ => rfl⟩

/-- Settles O40: each RX.DEC takes the frame at the front, and the last finds nothing. -/
theorem backToBackFramesDecodeInTurn : Obligations.BackToBackFramesDecodeInTurn := by
  intro t1 t2 q1 q2 p1 p2 s hp1 hp2 hbuf
  obtain ⟨u, hu, hubuf, huresp, hugap⟩ := exec_rxDec_takes_wireFrame hp1 hbuf
  obtain ⟨v, hv, hvbuf, hvresp, -⟩ := exec_rxDec_takes_wireFrame hp2 (hubuf.trans (List.append_nil _).symm)
  have hempty : tryDecode v.rxbuf = .needMoreNoSof := by rw [hvbuf]; rfl
  refine ⟨respond (.needMoreNoSof 0) v, ?_, hvbuf, ?_⟩
  · simp only [runCommands, runWith_cons, hu, hv, exec_rxDec_of_needMoreNoSof hempty, andThen_next, runWith_nil]
  · simp only [respond_responses, hvresp, huresp, hugap, List.append_assoc]
    rfl

/-! One inverted bit (R158). -/

theorem byteAt_flipBit_of_ne {bs : List Byte} {k i : Nat} (h : i ≠ k) (j : Nat) : byteAt (flipBit bs k j) i = byteAt bs i := by
  simp [byteAt, flipBit, h.symm]

theorem byteAt_flipBit_ne {bs : List Byte} {k j : Nat} (hk : k < bs.length) (hj : j < 8) :
    byteAt (flipBit bs k j) k ≠ byteAt bs k := by
  simpa [byteAt, flipBit, hk] using one_shiftLeft_ne_zero j hj

theorem byteAt_slice {bs : List Byte} {a b i : Nat} (h : i < b - a) : byteAt (slice bs a b) i = byteAt bs (a + i) := by
  simp [byteAt, slice, h]

theorem slice_set {bs : List Byte} {a k : Nat} (h : a ≤ k) (b : Nat) (x : Byte) :
    slice (bs.set k x) a b = (slice bs a b).set (k - a) x := by
  simp [slice, List.drop_set, List.take_set, Nat.not_lt.2 h]

theorem slice_flipBit_inside {bs : List Byte} {a b k : Nat} (ha : a ≤ k) (hb : k < b) (j : Nat) :
    slice (flipBit bs k j) a b = flipBit (slice bs a b) (k - a) j := by
  rw [flipBit, slice_set ha, flipBit, byteAt_slice (by omega), Nat.add_sub_cancel' ha]

theorem slice_flipBit_behind {bs : List Byte} {a b k : Nat} (ha : a ≤ k) (hb : b ≤ k) (j : Nat) :
    slice (flipBit bs k j) a b = slice bs a b := by
  rw [flipBit, slice_set ha, List.set_eq_of_length_le]
  simp only [slice, List.length_take]
  omega

theorem be16_inj {h l h' l' : Byte} (heq : be16 h l = be16 h' l') : h = h' ∧ l = l' :=
  ⟨by simpa using congrArg hiByte heq, by simpa using congrArg loByte heq⟩

/-- An inverted bit of a frame that stands at the front, but for its SOF and length, makes its CRC wrong: either the CRC of the changed bytes
(R103) or the checksum field is another. -/
theorem computedCrc_ne_carriedCrc_of_flipBit {bs : List Byte} {k j : Nat} (hgood : computedCrc bs 0 = carriedCrc bs 0)
    (h2 : 2 ≤ k) (h5 : k ≠ 5) (hframe : k < 8 + announcedLength bs 0) (hlen : 8 + announcedLength bs 0 ≤ bs.length) (hj : j < 8) :
    computedCrc (flipBit bs k j) 0 ≠ carriedCrc (flipBit bs k j) 0 := by
  have hann : announcedLength (flipBit bs k j) 0 = announcedLength bs 0 := by
    rw [announcedLength, byteAt_flipBit_of_ne h5.symm]
  simp only [computedCrc, carriedCrc, hann, Nat.zero_add] at hgood ⊢
  by_cases hk : k < 6 + announcedLength bs 0
  · rw [slice_flipBit_inside h2 hk, byteAt_flipBit_of_ne (by omega), byteAt_flipBit_of_ne (by omega), ← hgood]
    refine crc16k_flipBit_ne ?_ hj
    rw [slice_length] <;> omega
  · rw [slice_flipBit_behind h2 (Nat.le_of_not_lt hk), hgood]
    intro heq
    obtain ⟨hhigh, hlow⟩ := be16_inj heq
    obtain rfl | rfl : k = 6 + announcedLength bs 0 ∨ k = 7 + announcedLength bs 0 := by omega
    · exact byteAt_flipBit_ne (by omega) hj hhigh.symm
    · exact byteAt_flipBit_ne (by omega) hj hlow.symm

/-- R158: the attempt on a frame with such an inverted bit. -/
theorem tryDecode_flipBit_wireFrame {p : List Byte} {k j : Nat} (hp : p.length ≤ 255) (t : Byte) (sq : U16)
    (hk : 2 ≤ k ∧ k < 5 ∨ 6 ≤ k ∧ k < (wireFrame t sq p).length) (hj : j < 8) :
    tryDecode (flipBit (wireFrame t sq p) k j) = .crcMismatch (wireFrame t sq p).length := by
  have hlen := wireFrame_length t sq p
  have hann : announcedLength (wireFrame t sq p) 0 = p.length := by
    simpa using announcedLength_wireFrame_append hp t sq []
  have hgood : computedCrc (wireFrame t sq p) 0 = carriedCrc (wireFrame t sq p) 0 := by
    simpa using computedCrc_eq_carriedCrc_of_wireFrame hp t sq []
  have hbad := computedCrc_ne_carriedCrc_of_flipBit (k := k) hgood (by omega) (by omega) (by omega) (by omega) hj
  have hann' : announcedLength (flipBit (wireFrame t sq p) k j) 0 = p.length := by
    rw [announcedLength, byteAt_flipBit_of_ne (by omega)]
    exact hann
  have hlen' : (flipBit (wireFrame t sq p) k j).length = 8 + p.length := by rw [flipBit, List.length_set, hlen]
  have hsof : SofAt (flipBit (wireFrame t sq p) k j) 0 := by
    rw [SofAt, flipBit, List.getElem?_set_ne (by omega), List.getElem?_set_ne (by omega)]
    exact ⟨rfl, rfl⟩
  have hd := tryDecode_crcMismatch (findSof_of_sofAt_zero hsof) (by omega) hbad
  rw [hd, hann', hlen, Nat.zero_add]

/-- Settles O41: the mismatch consumes the whole frame. -/
theorem singleBitCorruptionIsDetected : Obligations.SingleBitCorruptionIsDetected := by
  intro t sq p k j s hp hk hj hbuf
  have hd : tryDecode s.rxbuf = .crcMismatch (wireFrame t sq p).length := by
    rw [hbuf, tryDecode_flipBit_wireFrame hp t sq hk hj]
  rw [exec_rxDec_of_crcMismatch hd, hbuf, List.drop_of_length_le (by rw [flipBit, List.length_set])]
  rfl

/-! Delivery one byte at a time (R159). -/

/-- The state in which byte-by-byte delivery has left `buf` in RXBUF, with no byte dropped and `answers` given by RX.DEC. -/
def delivered (buf : List Byte) (answers : List Response) (s : State) : State :=
  { s with rxbuf := buf, responses := s.responses ++ answers.flatMap fun r => [.pushed 0, r] }

theorem gapReport_respond (r : Response) (s : State) (sq : U16) : gapReport (respond r s) sq = gapReport s sq := rfl

theorem delivered_delivered (buf buf' : List Byte) (as bs : List Response) (s : State) :
    delivered buf' bs (delivered buf as s) = delivered buf' (as ++ bs) s := by
  simp [delivered]

theorem runAt_pushDecEach_append (cap : Option Nat) (bs cs : List Byte) (s : State) :
    runAt cap (pushDecEach (bs ++ cs)) s = andThen (runAt cap (pushDecEach bs) s) (runAt cap (pushDecEach cs)) := by
  rw [pushDecEach, List.flatMap_append]
  exact runWith_append (execAt cap) _ _ s

theorem runAt_pushDecEach_singleton {cap : Option Nat} {s : State} (h : cap ≠ some s.rxbuf.length) (b : Byte) :
    runAt cap (pushDecEach [b]) s = exec .rxDec (respond (.pushed 0) (writeRxbuf (s.rxbuf ++ [b]) s)) := by
  have hrun : runAt cap (pushDecEach [b]) s = andThen (execAt cap (.rxPush b) s) fun u => andThen (execAt cap .rxDec u) .next := rfl
  obtain ⟨t, ht⟩ := execAt_next cap .rxDec (respond (.pushed 0) (writeRxbuf (s.rxbuf ++ [b]) s))
  rw [hrun, execAt_rxPush_of_room h, andThen_next, ht, andThen_next]
  exact ht.symm

/-- While RX.DEC gives one answer `r` and consumes nothing, delivery gathers the bytes. -/
theorem runAt_pushDecEach_of_waiting {cap : Option Nat} {bs : List Byte} {r : Response} {s : State}
    (hroom : ∀ c, cap = some c → s.rxbuf.length + bs.length ≤ c)
    (hwait : ∀ d u, d ≠ [] → d <+: bs → u.rxbuf = s.rxbuf ++ d → exec .rxDec u = .next (respond r u)) :
    runAt cap (pushDecEach bs) s = .next (delivered (s.rxbuf ++ bs) (List.replicate bs.length r) s) := by
  induction bs generalizing s with
  | nil => simp [pushDecEach, runAt, delivered]
  | cons b bs ih =>
    have hfits : cap ≠ some s.rxbuf.length := by
      intro hc
      have := hroom _ hc
      rw [List.length_cons] at this
      omega
    have hone : runAt cap (pushDecEach [b]) s = .next (delivered (s.rxbuf ++ [b]) [r] s) := by
      rw [runAt_pushDecEach_singleton hfits, hwait [b] _ (by simp) (by simp) rfl]
      simp [delivered, respond, writeRxbuf]
    have hrest := ih (s := delivered (s.rxbuf ++ [b]) [r] s)
      (fun c hc => by
        have := hroom c hc
        simp [delivered] at this ⊢
        omega)
      (fun d u hd hpre hu => hwait (b :: d) u (by simp) (by simpa using hpre) (by simpa [delivered] using hu))
    rw [← List.singleton_append, runAt_pushDecEach_append, hone, andThen_next, hrest, delivered_delivered]
    simp [delivered, List.replicate_succ]

theorem sofAt_append_of_sofAt {xs : List Byte} {k : Nat} (h : SofAt xs k) (ys : List Byte) : SofAt (xs ++ ys) k :=
  (sofAt_append_left (succ_lt_length_of_sofAt h) ys).2 h

/-- Garbage, and `1A` behind it, hold no SOF, however much of them has arrived. -/
theorem tryDecode_of_arriving_garbage {g d : List Byte} (hg : SofFree g) (h : d <+: g ++ [0x1A]) : tryDecode d = .needMoreNoSof := by
  refine tryDecode_eq_needMoreNoSof_iff.2 (findSof_eq_none_iff.2 fun k hk => ?_)
  obtain ⟨e, he⟩ := h
  have hsof : SofAt (g ++ [0x1A]) k := he ▸ sofAt_append_of_sofAt hk e
  have hlt := succ_lt_length_of_sofAt hsof
  rw [List.length_append, List.length_singleton] at hlt
  exact noSofIn_of_sofFree hg (by decide) k (by omega) hsof

/-- A frame that has its SOF but not all of its bytes is incomplete (R143). -/
theorem tryDecode_of_arriving_frame {t : Byte} {sq : U16} {p d e : List Byte} (hp : p.length ≤ 255) (h : wireFrame t sq p = d ++ e)
    (hd : 2 ≤ d.length) (he : e ≠ []) : tryDecode d = .needMoreIncomplete 0 := by
  have hlen := congrArg List.length h
  rw [wireFrame_length, List.length_append] at hlen
  have hmissing := List.length_pos_of_ne_nil he
  have hsof : SofAt (d ++ e) 0 := h ▸ ⟨rfl, rfl⟩
  refine tryDecode_eq_needMoreIncomplete_iff.2 ⟨findSof_of_sofAt_zero ((sofAt_append_left (by omega) e).1 hsof), ?_⟩
  by_cases h8 : d.length < 8
  · exact .inl h8
  · have hann : announcedLength d 0 = p.length := by
      have hwhole := announcedLength_wireFrame_append hp t sq []
      rwa [List.append_nil, h, announcedLength, byteAt_append_left _ _ _ (by omega)] at hwhole
    rw [hann]
    omega

/-- Bytes 2 to 6 + N of a frame: all between the SOF and the last byte. -/
def frameMiddle (t : Byte) (sq : U16) (p : List Byte) : List Byte :=
  [t, hiByte sq, loByte sq, BitVec.ofNat 8 p.length] ++ p ++ [hiByte (crc16k ([t, hiByte sq, loByte sq, BitVec.ofNat 8 p.length] ++ p))]

/-- The last byte of a frame. -/
def frameLast (t : Byte) (sq : U16) (p : List Byte) : Byte :=
  loByte (crc16k ([t, hiByte sq, loByte sq, BitVec.ofNat 8 p.length] ++ p))

theorem wireFrame_eq_parts (t : Byte) (sq : U16) (p : List Byte) :
    wireFrame t sq p = [0x1A, 0xCF] ++ frameMiddle t sq p ++ [frameLast t sq p] := by
  simp [wireFrame, frameMiddle, frameLast]

theorem frameMiddle_length (t : Byte) (sq : U16) (p : List Byte) : (frameMiddle t sq p).length = (wireFrame t sq p).length - 3 := by
  simp [wireFrame_eq_parts]

section Delivery

variable {cap : Option Nat} {g p : List Byte} {t : Byte} {sq : U16} {s : State}

theorem deliver_garbage (hg : SofFree g) (hcap : ∀ c, cap = some c → g.length + 2 ≤ c) (hs : s.rxbuf = []) :
    runAt cap (pushDecEach (g ++ [0x1A])) s =
      .next (delivered (g ++ [0x1A]) (List.replicate (g.length + 1) (.needMoreNoSof 0)) s) := by
  have hrun := runAt_pushDecEach_of_waiting (cap := cap) (bs := g ++ [0x1A]) (r := .needMoreNoSof 0) (s := s)
    (fun c hc => by
      have := hcap c hc
      simp [hs]
      omega)
    (fun d u _ hpre hu => exec_rxDec_of_needMoreNoSof (by
      rw [hu, hs]
      exact tryDecode_of_arriving_garbage hg hpre))
  rw [hrun, hs, List.nil_append, List.length_append, List.length_singleton]

/-- The byte that completes the SOF lets the garbage go. -/
theorem deliver_sof (hg : SofFree g) (hcap : ∀ c, cap = some c → g.length + 2 ≤ c) (hs : s.rxbuf = g ++ [0x1A]) :
    runAt cap (pushDecEach [0xCF]) s = .next (delivered [0x1A, 0xCF] [.needMoreIncomplete g.length] s) := by
  have hroom : cap ≠ some s.rxbuf.length := by
    intro hc
    have := hcap _ hc
    simp [hs] at this
  have hsof : tryDecode (g ++ [0x1A, 0xCF]) = .needMoreIncomplete g.length :=
    tryDecode_append (noSofIn_of_sofFree hg (by decide))
  have hbuf : s.rxbuf ++ [0xCF] = g ++ [0x1A, 0xCF] := by simp [hs]
  rw [runAt_pushDecEach_singleton hroom, hbuf, exec_rxDec_of_needMoreIncomplete hsof]
  simp [delivered, respond, writeRxbuf]

theorem deliver_middle (hp : p.length ≤ 255) (hcap : ∀ c, cap = some c → 263 ≤ c) (hs : s.rxbuf = [0x1A, 0xCF]) :
    runAt cap (pushDecEach (frameMiddle t sq p)) s = .next (delivered ([0x1A, 0xCF] ++ frameMiddle t sq p)
      (List.replicate ((wireFrame t sq p).length - 3) (.needMoreIncomplete 0)) s) := by
  have hlen := wireFrame_length t sq p
  have hmiddle := frameMiddle_length t sq p
  have hrun := runAt_pushDecEach_of_waiting (cap := cap) (bs := frameMiddle t sq p) (r := .needMoreIncomplete 0) (s := s)
    (fun c hc => by
      have := hcap c hc
      simp only [hs, List.length_cons, List.length_nil]
      omega)
    (fun d u _ ⟨e, he⟩ hu => exec_rxDec_of_needMoreIncomplete (by
      rw [hu, hs]
      refine tryDecode_of_arriving_frame (t := t) (sq := sq) (e := e ++ [frameLast t sq p]) hp ?_ (by simp) (by simp)
      rw [wireFrame_eq_parts, ← he]
      simp))
  rw [hrun, hs, hmiddle]

theorem deliver_last (hp : p.length ≤ 255) (hcap : ∀ c, cap = some c → 263 ≤ c) (hs : s.rxbuf = [0x1A, 0xCF] ++ frameMiddle t sq p) :
    runAt cap (pushDecEach [frameLast t sq p]) s =
      .next (writeTracker sq (delivered [] [.packet (wireFrame t sq p).length t sq p (gapReport s sq)] s)) := by
  have hframe : s.rxbuf ++ [frameLast t sq p] = wireFrame t sq p ++ [] := by rw [hs, List.append_nil, wireFrame_eq_parts]
  have hlen := congrArg List.length hframe
  rw [List.append_nil, wireFrame_length, List.length_append, List.length_singleton] at hlen
  have hroom : cap ≠ some s.rxbuf.length := by
    intro hc
    have := hcap _ hc
    omega
  rw [runAt_pushDecEach_singleton hroom, exec_rxDec_of_wireFrame hp hframe, gapReport_respond, gapReport_writeRxbuf]
  simp [delivered, respond, writeRxbuf, writeTracker]

end Delivery

/-- Settles O42: the garbage and `1A`, then `CF`, then all but the last byte, then that. -/
theorem partialDeliveryGivesOnePacket : Obligations.PartialDeliveryGivesOnePacket := by
  intro cap g t sq p s hg hp hs hcap answers
  have hstream : g ++ wireFrame t sq p = g ++ [0x1A] ++ [0xCF] ++ frameMiddle t sq p ++ [frameLast t sq p] := by
    simp [wireFrame_eq_parts]
  have hgarbage (c : Nat) (hc : cap = some c) : g.length + 2 ≤ c := (hcap c hc).2
  have hframe (c : Nat) (hc : cap = some c) : 263 ≤ c := (hcap c hc).1
  refine ⟨writeTracker sq (delivered [] answers s), ?_, rfl, rfl⟩
  rw [hstream, runAt_pushDecEach_append, runAt_pushDecEach_append, runAt_pushDecEach_append, deliver_garbage hg hgarbage hs, andThen_next,
    deliver_sof hg hgarbage rfl, andThen_next, delivered_delivered, deliver_middle hp hframe rfl, andThen_next, delivered_delivered,
    deliver_last hp hframe rfl, delivered_delivered]
  rfl

end Sys2Proof.Machine
end

section
/-! PROOFS. A bounded buffer that never drops an SOF from its front beside an unbounded one (42_decoder.md R163). -/

namespace Sys2Proof.Machine

/-- `kept` is the unbounded buffer `full` without some bytes at its front, in which no SOF begins. Bytes are lost only by a full buffer, so
that an empty one has lost none. -/
def FrontLost (kept full : List Byte) : Prop := ∃ lost, full = lost ++ kept ∧ NoSofIn lost kept ∧ (kept = [] → lost = [])

theorem frontLost_refl (buf : List Byte) : FrontLost buf buf := ⟨[], rfl, fun _ hk => absurd hk (Nat.not_lt_zero _), fun _ => rfl⟩

theorem pushByte_frontLost {c : Nat} {kept full : List Byte} {b : Byte} (hc : 2 ≤ c) (h : FrontLost kept full)
    (hsafe : SafePush (some c) kept) : FrontLost (pushByte (some c) kept b).1 (full ++ [b]) := by
  obtain ⟨lost, rfl, hfree, hempty⟩ := h
  have hbefore (k : Nat) (hk : k < lost.length) : ¬ SofAt (lost ++ kept ++ [b]) k := by
    have hkept : kept ≠ [] := fun h0 => by simp [hempty h0] at hk
    have hlen := List.length_pos_of_ne_nil hkept
    rw [sofAt_append_left (by rw [List.length_append]; omega)]
    exact hfree k hk
  obtain ⟨hfull, hp⟩ | ⟨-, hp⟩ := pushByte_cases (some c) kept b
  · cases kept with
    | nil => cases hfull; cases hc
    | cons a kept =>
      have hfront : ¬ SofAt (lost ++ (a :: kept) ++ [b]) lost.length := by
        intro hsof
        cases hfull
        rw [sofAt_append_left (by rw [List.length_append]; omega)] at hsof
        exact hsafe rfl ((sofAt_append_right lost (a :: kept) 0).1 hsof)
      have hstream : lost ++ (a :: kept) ++ [b] = (lost ++ [a]) ++ (kept ++ [b]) := by simp
      simp only [hp, List.drop_one, List.tail_cons]
      refine ⟨lost ++ [a], hstream, fun k hk => ?_, by simp⟩
      rw [← hstream]
      rw [List.length_append, List.length_singleton] at hk
      obtain hk | rfl := Nat.lt_succ_iff_lt_or_eq.1 hk
      · exact hbefore k hk
      · exact hfront
  · rw [hp]
    exact ⟨lost, List.append_assoc .., fun k hk => by simpa using hbefore k hk, by simp⟩

theorem pushBytes_frontLost {c : Nat} {kept full d : List Byte} (hc : 2 ≤ c) (h : FrontLost kept full)
    (hsafe : SafePushes (some c) kept d) : FrontLost (pushBytes (some c) kept d).1 (full ++ d) := by
  induction d generalizing kept full with
  | nil => simpa using h
  | cons b d ih =>
    obtain ⟨hfirst, hrest⟩ := hsafe
    rw [pushBytes_cons, ← List.singleton_append, ← List.append_assoc]
    exact ih (pushByte_frontLost hc h hfirst) hrest

/-- The unbounded run's state `u` beside the bounded run's `t`: all that R163 says is equal, and the buffers' relation. -/
structure KeepsUp (t u : State) : Prop where
  responses : t.responses.map eraseCounts = u.responses.map eraseCounts
  txout : t.txout = u.txout
  crcAcc : t.crcAcc = u.crcAcc
  txSeq : t.txSeq = u.txSeq
  lastSeqValid : t.lastSeqValid = u.lastSeqValid
  lastSeq : t.lastSeq = u.lastSeq
  rxbuf : FrontLost t.rxbuf u.rxbuf

theorem keepsUp_refl (s : State) : KeepsUp s s := ⟨rfl, rfl, rfl, rfl, rfl, rfl, frontLost_refl s.rxbuf⟩

namespace KeepsUp

variable {t u : State} (h : KeepsUp t u)

include h

theorem respond {r r' : Response} (hr : eraseCounts r = eraseCounts r') : KeepsUp (respond r t) (respond r' u) :=
  { h with responses := by simp [h.responses, hr] }

theorem emit (bs : List Byte) : KeepsUp (emit bs t) (emit bs u) := { h with txout := by simp [h.txout] }

theorem writeCrcAcc (v : U16) : KeepsUp (writeCrcAcc v t) (writeCrcAcc v u) := { h with crcAcc := rfl }

theorem writeTxSeq (v : U16) : KeepsUp (writeTxSeq v t) (writeTxSeq v u) := { h with txSeq := rfl }

theorem writeTracker (v : U16) : KeepsUp (writeTracker v t) (writeTracker v u) := { h with lastSeqValid := rfl, lastSeq := rfl }

theorem writeRxbuf {kept full : List Byte} (hbuf : FrontLost kept full) : KeepsUp (writeRxbuf kept t) (writeRxbuf full u) :=
  { h with rxbuf := hbuf }

theorem gapReport_eq (sq : U16) : gapReport t sq = gapReport u sq := by simp [gapReport, h.lastSeqValid, h.lastSeq]

/-- Both runs' RX.DEC find the same frame, because no SOF begins in the lost bytes; where it consumes, those go with it. -/
theorem rxDec : ∃ t' u', exec .rxDec t = .next t' ∧ exec .rxDec u = .next u' ∧ KeepsUp t' u' := by
  obtain ⟨lost, hfull, hfree, -⟩ := h.rxbuf
  have hdec : tryDecode u.rxbuf = attemptBehind lost.length (tryDecode t.rxbuf) := by rw [hfull, tryDecode_append hfree]
  have hdrop (k : Nat) : FrontLost (t.rxbuf.drop k) (u.rxbuf.drop (lost.length + k)) := by
    rw [hfull, List.drop_length_add_append]
    exact frontLost_refl _
  cases ht : tryDecode t.rxbuf with
  | needMoreNoSof =>
    rw [ht] at hdec
    exact ⟨_, _, exec_rxDec_of_needMoreNoSof ht, exec_rxDec_of_needMoreNoSof hdec, h.respond rfl⟩
  | needMoreIncomplete k =>
    rw [ht] at hdec
    exact ⟨_, _, exec_rxDec_of_needMoreIncomplete ht, exec_rxDec_of_needMoreIncomplete hdec, (h.writeRxbuf (hdrop k)).respond rfl⟩
  | crcMismatch k =>
    rw [ht] at hdec
    exact ⟨_, _, exec_rxDec_of_crcMismatch ht, exec_rxDec_of_crcMismatch hdec, (h.writeRxbuf (hdrop k)).respond rfl⟩
  | packet k pkt =>
    rw [ht] at hdec
    refine ⟨_, _, exec_rxDec_of_packet ht, exec_rxDec_of_packet hdec, ((h.writeRxbuf (hdrop k)).writeTracker _).respond ?_⟩
    simp only [eraseCounts, h.gapReport_eq]

theorem rxPushn {c : Nat} {d : List Byte} (hc : 2 ≤ c) (hsafe : SafePushes (some c) t.rxbuf d) :
    ∃ t' u', execAt (some c) (.rxPushn d) t = .next t' ∧ execAt none (.rxPushn d) u = .next u' ∧ KeepsUp t' u' := by
  have hbuf := pushBytes_frontLost hc h.rxbuf hsafe
  have hall : pushBytes none u.rxbuf d = (u.rxbuf ++ d, 0) := pushBytes_of_fits none u.rxbuf d nofun
  refine ⟨_, _, rfl, rfl, (h.writeRxbuf ?_).respond rfl⟩
  rwa [hall]

/-- One command that drops no SOF from the front keeps the two runs beside each other. -/
theorem command {c : Nat} {i : Instr} (hc : 2 ≤ c) (hsafe : SafeCommand (some c) i t) :
    ∃ t' u', execAt (some c) i t = .next t' ∧ execAt none i u = .next u' ∧ KeepsUp t' u' := by
  cases i with
  | rxPush b => exact h.rxPushn hc hsafe
  | rxPushn d => exact h.rxPushn hc hsafe
  | rxDec => exact h.rxDec
  | rxLvl => exact ⟨_, _, rfl, rfl, h.respond rfl⟩
  | crcClr => exact ⟨_, _, rfl, rfl, (h.writeCrcAcc _).respond rfl⟩
  | crcUpd b =>
    have hu : execAt none (.crcUpd b) u = .next (Machine.respond .done (Machine.writeCrcAcc (crcStep t.crcAcc b) u)) := by
      rw [h.crcAcc]
      rfl
    exact ⟨_, _, rfl, hu, (h.writeCrcAcc _).respond rfl⟩
  | crcRd => exact ⟨_, _, rfl, rfl, h.respond (by rw [h.crcAcc])⟩
  | seqRd => exact ⟨_, _, rfl, rfl, h.respond (by rw [h.txSeq])⟩
  | seqAdv =>
    have hu : execAt none .seqAdv u = .next (Machine.respond .done (Machine.writeTxSeq (nextSeq t.txSeq) u)) := by
      rw [h.txSeq]
      rfl
    exact ⟨_, _, rfl, hu, (h.writeTxSeq _).respond rfl⟩
  | rxseqRd => exact ⟨_, _, rfl, rfl, h.respond (by rw [h.lastSeqValid, h.lastSeq])⟩
  | frmEnc ty sq p =>
    by_cases hp : p.length ≤ 255
    · exact ⟨_, _, exec_frmEnc_of_le hp ty sq t, exec_frmEnc_of_le hp ty sq u, (h.emit _).respond rfl⟩
    · have hp := Nat.lt_of_not_le hp
      exact ⟨_, _, exec_frmEnc_of_lt hp ty sq t, exec_frmEnc_of_lt hp ty sq u, h.respond rfl⟩
  | frmSend ty p =>
    by_cases hp : p.length ≤ 255
    · have hu := exec_frmSend_of_le hp ty u
      rw [← h.txSeq] at hu
      exact ⟨_, _, exec_frmSend_of_le hp ty t, hu, ((h.emit _).respond rfl).writeTxSeq _⟩
    · have hp := Nat.lt_of_not_le hp
      exact ⟨_, _, exec_frmSend_of_lt hp ty t, exec_frmSend_of_lt hp ty u, h.respond rfl⟩

theorem run {c : Nat} {is : List Instr} (hc : 2 ≤ c) (hsafe : OverflowSafe (some c) is t) :
    ∃ t' u', runAt (some c) is t = .next t' ∧ runAt none is u = .next u' ∧ KeepsUp t' u' := by
  induction is generalizing t u with
  | nil => exact ⟨t, u, rfl, rfl, h⟩
  | cons i is ih =>
    obtain ⟨hfirst, hrest⟩ := hsafe
    obtain ⟨t1, u1, ht1, hu1, h1⟩ := h.command hc hfirst
    obtain ⟨t', u', ht', hu', h'⟩ := ih h1 (hrest t1 ht1)
    refine ⟨t', u', ?_, ?_, h'⟩
    · rw [runAt, runWith_cons, ht1]
      exact ht'
    · rw [runAt, runWith_cons, hu1]
      exact hu'

end KeepsUp

/-- Settles O43: the two runs start beside each other and stay so. -/
theorem safeOverflowKeepsEveryPacket : Obligations.SafeOverflowKeepsEveryPacket := by
  intro c is s hc hsafe
  obtain ⟨t, u, ht, hu, h⟩ := (keepsUp_refl s).run (by omega) hsafe
  obtain ⟨lost, hfull, -⟩ := h.rxbuf
  exact ⟨t, u, ht, hu, h.responses, h.txout, h.crcAcc, h.txSeq, h.lastSeqValid, h.lastSeq, lost, hfull.symm⟩

end Sys2Proof.Machine
end

section
/-! PROOFS. The transmit counter and the receive tracker: their three commands, the gap's arithmetic, the numbers of a run's sends, and frames
sent from any counter value and delivered in order (43_sequence.md R180 to R188). -/

namespace Sys2Proof.Machine

/-- Settles O24: the opcode map's row and the command's own meaning. -/
theorem seqRdReadsTheCounter : Obligations.SeqRdReadsTheCounter :=
  ⟨decode_opcode .seqRd, fun _ => rfl⟩

/-- Settles O25: the counter that SEQ.ADV writes is the successor modulo 65536. -/
theorem seqAdvAdvancesTheCounter : Obligations.SeqAdvAdvancesTheCounter := by
  refine ⟨decode_opcode .seqAdv, fun s => ?_⟩
  rw [← nextSeq_eq_ofNat]
  rfl

/-- Settles O46: the opcode map's row and the command's own meaning. -/
theorem rxseqRdReadsTheTracker : Obligations.RxseqRdReadsTheTracker :=
  ⟨decode_opcode .rxseqRd, fun _ => rfl⟩

/-- R184: the word difference is the integer difference modulo 65536. -/
theorem gapOf_toNat (last sq : U16) : ((gapOf last sq).toNat : Int) = ((sq.toNat : Int) - (last.toNat + 1)) % 65536 := by
  have hnext : (last + 1).toNat = (last.toNat + 1) % 65536 := BitVec.toNat_add last 1
  rw [gapOf, BitVec.toNat_sub, hnext]
  omega

/-- Settles O47: `gapOf_toNat`, and each row of R187's table evaluated. -/
theorem gapIsTheFormulaModulo65536 : Obligations.GapIsTheFormulaModulo65536 :=
  ⟨gapOf_toNat, by decide⟩

/-! Sequence numbers counted from a counter value (R180). -/

theorem ofNat_nextSeq_add (v : U16) (k : Nat) : BitVec.ofNat 16 ((nextSeq v).toNat + k) = BitVec.ofNat 16 (v.toNat + (k + 1)) := by
  apply BitVec.eq_of_toNat_eq
  rw [nextSeq_eq_ofNat]
  simp only [BitVec.toNat_ofNat]
  omega

/-- The `n` sequence numbers that begin at counter value `v`. -/
def seqsFrom (v : U16) (n : Nat) : List U16 := (List.range n).map fun k => BitVec.ofNat 16 (v.toNat + k)

@[simp] theorem seqsFrom_length (v : U16) (n : Nat) : (seqsFrom v n).length = n := by simp [seqsFrom]

theorem seqsFrom_succ (v : U16) (n : Nat) : seqsFrom v (n + 1) = v :: seqsFrom (nextSeq v) n := by
  simp [seqsFrom, List.range_succ_eq_map, ofNat_nextSeq_add]

/-- The counter returns to a value only after 65536 increments. -/
theorem seqsFrom_nodup (v : U16) {n : Nat} (hn : n ≤ 65536) : (seqsFrom v n).Nodup := by
  refine List.Nodup.map_on (fun j hj k hk heq => ?_) List.nodup_range
  have hmod := congrArg BitVec.toNat heq
  simp only [BitVec.toNat_ofNat, List.mem_range] at hmod hj hk
  omega

/-! The numbers of a run's sends (R188, the sender's half). -/

/-- A command other than SEQ.ADV advances TX_SEQ exactly when it answers as a send, and that answer carries the value before (R123). -/
theorem exec_sentSeq {i : Instr} (hadv : i ≠ .seqAdv) (s : State) :
    ∃ t r, exec i s = .next t ∧ t.responses = s.responses ++ [r] ∧
      (sentSeq? r = none ∧ t.txSeq = s.txSeq ∨ sentSeq? r = some s.txSeq ∧ t.txSeq = nextSeq s.txSeq) := by
  cases i with
  | seqAdv => exact absurd rfl hadv
  | crcClr | crcUpd | crcRd | seqRd | rxPush | rxPushn | rxLvl | rxseqRd => exact ⟨_, _, rfl, rfl, .inl ⟨rfl, rfl⟩⟩
  | frmEnc t sq p =>
    obtain ⟨f, -, -, he⟩ | ⟨-, he⟩ := execFrmEnc_cases t sq p s <;> exact ⟨_, _, he, rfl, .inl ⟨rfl, rfl⟩⟩
  | frmSend t p =>
    obtain ⟨f, -, -, he⟩ | ⟨-, he⟩ := execFrmSend_cases t p s
    · exact ⟨_, _, he, rfl, .inr ⟨rfl, rfl⟩⟩
    · exact ⟨_, _, he, rfl, .inl ⟨rfl, rfl⟩⟩
  | rxDec =>
    obtain ⟨-, he⟩ | ⟨k, -, he⟩ | ⟨k, -, he⟩ | ⟨k, pkt, -, he⟩ := execRxDec_cases s <;> exact ⟨_, _, he, rfl, .inl ⟨rfl, rfl⟩⟩

theorem runCommands_cons_of_next {i : Instr} {s t : State} (h : exec i s = .next t) (is : List Instr) :
    runCommands (i :: is) s = runCommands is t := by
  rw [runCommands, runWith_cons, h, andThen_next, runCommands]

theorem runCommands_sentSeqs {is : List Instr} (hadv : Instr.seqAdv ∉ is) (s : State) :
    ∃ t rs n, runCommands is s = .next t ∧ t.responses = s.responses ++ rs ∧ rs.filterMap sentSeq? = seqsFrom s.txSeq n := by
  induction is generalizing s with
  | nil => exact ⟨s, [], 0, rfl, by simp, rfl⟩
  | cons i is ih =>
    obtain ⟨hi, his⟩ := List.ne_and_not_mem_of_not_mem_cons hadv
    obtain ⟨u, r, hu, hr, hsent⟩ := exec_sentSeq hi.symm s
    obtain ⟨t, rs, n, ht, hrs, hseqs⟩ := ih his u
    have hrun : runCommands (i :: is) s = .next t := (runCommands_cons_of_next hu is).trans ht
    have hresp : t.responses = s.responses ++ r :: rs := by simp [hrs, hr]
    obtain ⟨hnone, htx⟩ | ⟨hsome, htx⟩ := hsent
    · exact ⟨t, r :: rs, n, hrun, hresp, by rw [List.filterMap_cons_none hnone, hseqs, htx]⟩
    · exact ⟨t, r :: rs, n + 1, hrun, hresp, by rw [List.filterMap_cons_some hsome, hseqs, htx, seqsFrom_succ]⟩

/-- Settles O26: the run's sends carry `seqsFrom` the counter, which repeats nothing within 65536. -/
theorem sendsCarryConsecutiveSequences : Obligations.SendsCarryConsecutiveSequences := by
  intro is s hadv
  obtain ⟨t, rs, n, ht, hrs, hseqs⟩ := runCommands_sentSeqs hadv s
  refine ⟨t, rs, ht, hrs, ?_⟩
  rw [hseqs, seqsFrom_length]
  exact ⟨rfl, seqsFrom_nodup s.txSeq⟩

/-! Loopback (R188, end to end). -/

/-- The frames of messages numbered from counter value `v`. -/
def framesFrom (v : U16) (msgs : List (Byte × List Byte)) : List (List Byte) :=
  msgs.mapIdx fun k m => wireFrame m.1 (BitVec.ofNat 16 (v.toNat + k)) m.2

theorem framesFrom_cons (v : U16) (m : Byte × List Byte) (msgs : List (Byte × List Byte)) :
    framesFrom v (m :: msgs) = wireFrame m.1 v m.2 :: framesFrom (nextSeq v) msgs := by
  simp [framesFrom, List.mapIdx_cons, ofNat_nextSeq_add]

/-- The answers to those frames, each pushed whole and decoded, when the first one's gap is `gap`. -/
def answersFrom (gap : Option U16) (v : U16) (msgs : List (Byte × List Byte)) : List (List Response) :=
  msgs.mapIdx fun k m => [.pushed 0, .packet (8 + m.2.length) m.1 (BitVec.ofNat 16 (v.toNat + k)) m.2 (if k = 0 then gap else some 0)]

theorem answersFrom_cons (gap : Option U16) (v : U16) (m : Byte × List Byte) (msgs : List (Byte × List Byte)) :
    answersFrom gap v (m :: msgs) =
      [.pushed 0, .packet (8 + m.2.length) m.1 v m.2 gap] :: answersFrom (some 0) (nextSeq v) msgs := by
  simp [answersFrom, List.mapIdx_cons, ofNat_nextSeq_add]

theorem runCommands_frmSends {msgs : List (Byte × List Byte)} (hlen : ∀ m ∈ msgs, m.2.length ≤ 255) (s : State) :
    ∃ t, runCommands (msgs.map fun m => .frmSend m.1 m.2) s = .next t ∧ t.txout = s.txout ++ (framesFrom s.txSeq msgs).flatten := by
  induction msgs generalizing s with
  | nil => exact ⟨s, rfl, by simp [framesFrom]⟩
  | cons m msgs ih =>
    obtain ⟨hm, hmsgs⟩ := List.forall_mem_cons.1 hlen
    have hsend := exec_frmSend_of_le hm m.1 s
    obtain ⟨t, ht, hout⟩ := ih hmsgs (writeTxSeq (nextSeq s.txSeq)
      (respond (.sent s.txSeq (wireFrame m.1 s.txSeq m.2)) (emit (wireFrame m.1 s.txSeq m.2) s)))
    refine ⟨t, (runCommands_cons_of_next hsend _).trans ht, ?_⟩
    simpa [framesFrom_cons] using hout

/-- Every capacity has room for 263 bytes (R3, R150). -/
theorem exec_rxPushn_of_fits {d : List Byte} {s : State} (h : s.rxbuf.length + d.length ≤ 263) :
    exec (.rxPushn d) s = .next (respond (.pushed 0) (writeRxbuf (s.rxbuf ++ d) s)) := by
  have hpush : pushBytes Config.bufCap.cap s.rxbuf d = (s.rxbuf ++ d, 0) :=
    pushBytes_of_fits _ _ _ fun c hc => h.trans (maxFrame_le_cap hc)
  simp only [exec, execRxPushn, rxPushnAt, hpush]

/-- R184, R187: the successor of the last sequence number leaves no gap. -/
theorem gapOf_nextSeq (v : U16) : gapOf v (nextSeq v) = 0 := BitVec.sub_self (v + 1)

/-- One frame into an empty buffer is one packet, leaves the buffer empty, and the successor's gap will be 0. -/
theorem runCommands_receives_wireFrame {p : List Byte} (hp : p.length ≤ 255) (t : Byte) (sq : U16) {r : State} (hr : r.rxbuf = []) :
    ∃ u, runCommands [.rxPushn (wireFrame t sq p), .rxDec] r = .next u ∧ u.rxbuf = [] ∧
      u.responses = r.responses ++ [.pushed 0, .packet (8 + p.length) t sq p (gapReport r sq)] ∧
      gapReport u (nextSeq sq) = some 0 := by
  have hlen := wireFrame_length t sq p
  have hpush := exec_rxPushn_of_fits (d := wireFrame t sq p) (s := r) (by rw [hr, List.length_nil]; omega)
  have hbuf : (respond (.pushed 0) (writeRxbuf (r.rxbuf ++ wireFrame t sq p) r)).rxbuf = wireFrame t sq p ++ [] := by simp [hr]
  obtain ⟨u, hu, hubuf, hresp, hgap⟩ := exec_rxDec_takes_wireFrame hp hbuf
  refine ⟨u, ?_, hubuf, ?_, ?_⟩
  · rw [runCommands_cons_of_next hpush, runCommands_cons_of_next hu]
    rfl
  · simp [hresp, hlen, gapReport_respond]
  · rw [hgap]
    exact congrArg some (gapOf_nextSeq sq)

theorem runCommands_receives_frames {msgs : List (Byte × List Byte)} (hlen : ∀ m ∈ msgs, m.2.length ≤ 255) (v : U16) {r : State}
    (hr : r.rxbuf = []) :
    ∃ u, runCommands ((framesFrom v msgs).flatMap fun f => [.rxPushn f, .rxDec]) r = .next u ∧
      u.responses = r.responses ++ (answersFrom (gapReport r v) v msgs).flatten := by
  induction msgs generalizing v r with
  | nil => exact ⟨r, rfl, by simp [answersFrom]⟩
  | cons m msgs ih =>
    obtain ⟨hm, hmsgs⟩ := List.forall_mem_cons.1 hlen
    obtain ⟨w, hw, hwbuf, hwresp, hgap⟩ := runCommands_receives_wireFrame hm m.1 v hr
    obtain ⟨u, hu, huresp⟩ := ih hmsgs (nextSeq v) hwbuf
    refine ⟨u, ?_, ?_⟩
    · rw [framesFrom_cons, List.flatMap_cons, runCommands_append, hw, andThen_next]
      exact hu
    · rw [huresp, hwresp, hgap, answersFrom_cons, List.flatten_cons, List.append_assoc]

/-- Settles O49: the sender's frames are `framesFrom` its counter, and the receiver's first gap is that of an unset tracker. -/
theorem loopbackDeliversEveryFrameInOrder : Obligations.LoopbackDeliversEveryFrameInOrder := by
  intro msgs s r hlen hbuf hvalid frames
  have hreceive := runCommands_receives_frames hlen s.txSeq hbuf
  rw [gapReport_of_not_valid r s.txSeq hvalid] at hreceive
  exact ⟨runCommands_frmSends hlen s, hreceive⟩

end Sys2Proof.Machine
end

section
/-! PROOFS. What a step that answers with an error leaves (60_exceptions.md R200 to R202). -/

namespace Sys2Proof.Machine

theorem encode_ne_nil (i : Instr) : encode i ≠ [] := by cases i <;> simp [encode]

/-- A whole command takes at least its opcode byte from the port (R80). -/
theorem length_rest_lt_of_command {bs rest : List Byte} {i : Instr} (h : decode bs = .command i rest) : rest.length < bs.length := by
  obtain ⟨-, rfl⟩ := decodedBytesAreTheEncoding bs i rest h
  simpa using List.length_pos_iff.2 (encode_ne_nil i)

/-- R202: ILLEGAL_CMD is the port's answer to an unassigned opcode, and no command's. -/
theorem illegalCmd_notMem_allowedStatus (i : Instr) : Status.illegalCmd ∉ allowedStatus i := by
  cases i <;> simp [allowedStatus]

/-- R200, R201: the one error a command can answer with is PAYLOAD_TOO_LARGE, and then the answer is all it leaves. -/
theorem exec_eq_respond_of_isError {i : Instr} {s t : State} {r : Response} (h : exec i s = .next t)
    (hr : t.responses = s.responses ++ [r]) (herr : r.status.isError = true) : t = respond r s := by
  cases hstatus : r.status with
  | ok | packet | needMoreNoSof | needMoreIncomplete | crcMismatch => simp [hstatus, Status.isError] at herr
  | illegalCmd =>
    obtain ⟨u, r', hu, hr', hallowed⟩ := everyCommandAnswersOnce i s
    cases hu.symm.trans h
    obtain rfl : r = r' := by simpa using hr.symm.trans hr'
    exact absurd (hstatus ▸ hallowed) (illegalCmd_notMem_allowedStatus i)
  | payloadTooLarge =>
    have raised {n : Nat} (he : exec i s = .next (raise (.payloadTooLarge n) s)) : t = respond r s := by
      cases he.symm.trans h
      obtain rfl : Response.payloadTooLarge n = r := by simpa using hr
      rfl
    have hlast : lastStatus t = some .payloadTooLarge := by simp [lastStatus, hr, hstatus]
    obtain ⟨ty, sq, p, rfl, hp⟩ | ⟨ty, p, rfl, hp⟩ := oversize_of_payloadTooLarge h hlast
    · exact raised (exec_frmEnc_of_lt hp ty sq s)
    · exact raised (exec_frmSend_of_lt hp ty s)

/-- Settles O52: a command's error or ILLEGAL_CMD is one response on top of the port's own move; an arriving byte and the reset input add no
response. -/
theorem failedCommandLeavesNoEffect : Obligations.FailedCommandLeavesNoEffect := by
  intro s t r h hr herr
  obtain ⟨i, rest, hd, he⟩ | ⟨op, rest, hd, rfl⟩ | ⟨b, later, -, -, rfl⟩ | ⟨later, -, -, rfl⟩ := step_cases h
  · obtain rfl := exec_eq_respond_of_isError he hr herr
    exact ⟨rfl, length_rest_lt_of_command hd⟩
  · obtain rfl : Response.illegalCmd op = r := by simpa using hr
    obtain ⟨-, hport⟩ := decode_eq_illegal hd
    exact ⟨rfl, by simp [hport]⟩
  · simp at hr
  · simp [State.reset] at hr

end Sys2Proof.Machine
end

section
/-! PROOFS. What the port holds, and the reset input that lifts it (70_reset_and_hazards.md R230, R239; 30_encoding.md R85). -/

namespace Sys2Proof.Machine

/-- R85: the first six bytes settle a command's length, and with a 16-bit count none is longer than 65541 bytes. -/
theorem commandLength_le_of_six_bytes {bs : List Byte} (h : 6 ≤ bs.length) : ∃ len, commandLength bs = some len ∧ len ≤ 65541 := by
  match bs, h with
  | op :: b1 :: b2 :: b3 :: b4 :: b5 :: tail, _ =>
    have count_le (nH nL : Byte) : (be16 nH nL).toNat ≤ 65535 := Nat.le_of_lt_succ (be16 nH nL).isLt
    cases ho : opcodeOf op with
    | none => exact ⟨1, commandLength_unassigned ho _, by decide⟩
    | some o =>
      obtain rfl := opcodeOf_eq_some.1 ho
      rw [commandLength_opcode]
      cases o with
      | crcClr | crcUpd | crcRd | seqRd | seqAdv | rxPush | rxDec | rxLvl | rxseqRd => exact ⟨_, rfl, by decide⟩
      | frmEnc => exact ⟨_, rfl, Nat.add_le_add_left (count_le b4 b5) 6⟩
      | frmSend => exact ⟨_, rfl, (Nat.add_le_add_left (count_le b2 b3) 4).trans (by decide)⟩
      | rxPushn => exact ⟨_, rfl, (Nat.add_le_add_left (count_le b1 b2) 3).trans (by decide)⟩

/-- The port never holds as many bytes as the longest command has. -/
theorem decode_ne_incomplete_of_longest {bs : List Byte} (h : 65541 ≤ bs.length) : decode bs ≠ .incomplete := by
  obtain ⟨len, hlen, hle⟩ := commandLength_le_of_six_bytes (le_trans (by decide) h)
  intro held
  exact absurd ((decode_eq_incomplete bs).1 held len hlen) (by omega)

/-- R239: a command that runs once more bytes came has all the held bytes, and at least one of the later ones. -/
theorem encode_extends_held {held later rest : List Byte} {i : Instr} (hheld : decode held = .incomplete)
    (h : decode (held ++ later) = .command i rest) : ∃ missing, missing ≠ [] ∧ encode i = held ++ missing := by
  obtain ⟨hi, hbytes⟩ := decodedBytesAreTheEncoding _ _ _ h
  have not_whole (tail : List Byte) : held ≠ encode i ++ tail := by
    rintro rfl
    cases hheld.symm.trans (decodeOfEncodeIsTheCommand i tail hi)
  obtain ⟨missing, hencode, -⟩ | ⟨tail, hwhole, -⟩ := List.append_eq_append_iff.1 hbytes
  · refine ⟨missing, ?_, hencode⟩
    rintro rfl
    exact not_whole [] (by simp [hencode])
  · exact absurd hwhole (not_whole tail)

/-- Held bytes have an assigned opcode at their front, so that whatever follows them is not answered ILLEGAL_CMD; an empty port has no byte
of its own. -/
theorem decode_append_ne_illegal {held later : List Byte} (hheld : decode held = .incomplete) (hne : held ≠ []) (op : Byte)
    (rest : List Byte) : decode (held ++ later) ≠ .illegal op rest := by
  intro h
  obtain ⟨hop, hbytes⟩ := decode_eq_illegal h
  cases held with
  | nil => exact hne rfl
  | cons first operands =>
    obtain ⟨rfl, -⟩ := List.cons.inj hbytes
    cases hheld.symm.trans (decode_unassigned hop operands)

/-- Settles O7: enough bytes after the held ones, whatever they are, complete a command, and it is the held bytes and more; conversely, a
command's bytes are held while some are missing. -/
theorem heldBytesAreTheStartOfACommand : Obligations.HeldBytesAreTheStartOfACommand := by
  intro bs
  constructor
  · intro held
    by_cases hnil : bs = []
    · exact ⟨.crcClr, encode .crcClr, rfl, encode_ne_nil _, by rw [hnil, List.nil_append]⟩
    · cases h : decode (bs ++ List.replicate 65541 0x00) with
      | incomplete => exact absurd h (decode_ne_incomplete_of_longest (by rw [List.length_append, List.length_replicate]; omega))
      | illegal op rest => exact absurd h (decode_append_ne_illegal held hnil op rest)
      | command i rest =>
        obtain ⟨missing, hmissing, hencode⟩ := encode_extends_held held h
        exact ⟨i, missing, (decodedBytesAreTheEncoding _ _ _ h).1, hmissing, hencode⟩
  · rintro ⟨i, missing, hi, hmissing, hencode⟩
    exact decode_of_missing_bytes hi hencode hmissing

/-- Settles O8: the step is the reset state with the later inputs (log 3). -/
theorem resetInputRestoresRegisters : Obligations.ResetInputRestoresRegisters := by
  intro s later held hinputs
  obtain ⟨hcrc, hseq, hbuf, hvalid, hlast, -⟩ := resetValues
  exact ⟨_, step_of_reset held hinputs, hcrc, hseq, hbuf, hvalid, hlast, rfl, rfl⟩

end Sys2Proof.Machine
end
